-- ==== Sys2Proof/Word.lean ====
section
/-! DEFINITION. The unsigned words of the block (00_scope.md R9, R10). Every value is an unsigned bit vector of a
stated width. `v[hi:lo]` of the spec is `v.extractLsb hi lo`, and `(a, b)` in its braces notation is `a ++ b`, with the
first part in the most significant bits. -/

namespace Sys2Proof

/-- A byte is 8 bits (R10): an element of IN or OUT, and a channel value R, G or B. -/
abbrev Byte := BitVec 8

/-- The packed sample P, 16 bits (R10, R29). -/
abbrev Sample := BitVec 16

/-- The command word CMD, 4 bits (R24, R60). -/
abbrev CmdWord := BitVec 4

/-- One field of CMD, 2 bits: SRC_ORDER or DST_ORDER (R61). -/
abbrev TagCode := BitVec 2

end Sys2Proof
end

