-- ==== Sys2Proof/Config.lean ====
section
/-! DEFINITION. The implementation parameters of the block (00_scope.md R8) and the model's one free value. A block has
one `Config` for its whole life. It stands in State (log 1), so that a statement about every state is a statement about
every parameter setting; no step changes it. -/

namespace Sys2Proof

/-- The two settings of `LEN_MULTIPLE` (R8): 3, or 24 at reference parity (90_conflicts.md C2). -/
inductive LenMultiple where
  | three
  | twentyFour
deriving DecidableEq, Repr

/-- The number a `LEN_MULTIPLE` setting stands for (R8). -/
def LenMultiple.value : LenMultiple → Nat
  | .three => 3
  | .twentyFour => 24

/-- The parameters of one block (R8). `OUT_CAP` is no parameter of the block: it comes with each request (R26). -/
structure Config where
  /-- `LEN_MULTIPLE`: the input length must be a multiple of it. -/
  lenMultiple : LenMultiple
  /-- `MAX_IN_LEN`: the longest input the environment can present. `none` says unbounded. -/
  maxInLen : Option Nat
  /-- `LANES - 1`. `LANES` is any integer of at least 1, so every value of this field is a legal one. -/
  lanesMinusOne : Nat
deriving DecidableEq, Repr

/-- `LANES`, the number of pixels the datapath may process at once (R8). -/
def Config.lanes (c : Config) : Nat := c.lanesMinusOne + 1

/-- The default of each parameter (R8): `LEN_MULTIPLE` 3, `MAX_IN_LEN` unbounded, `LANES` 1. -/
def Config.default : Config := ⟨.three, none, 0⟩

/-- FREE VALUE (70_reset_and_hazards.md R141, log 5). What the request aborted by the `k`-th abort had written at index
`a` of its OUT storage: nothing, or any byte. The spec calls these bytes unspecified and has a model treat them as any
value, so this constant has no body. -/
opaque Config.abandonedByte (k a : Nat) : Option Byte

end Sys2Proof
end

