-- ==== Sys2Proof/Syntax.lean ====
section
/-! DEFINITION. The commands of the block, one constructor for each row of spec/opcode_table.json, and the request that
carries a command word. The block fetches no instruction stream (30_encoding.md R60): a program is a sequence of
requests (95_test_vectors.md section 3). -/

namespace Sys2Proof

/-- A channel-order tag (00_scope.md R3). -/
inductive ChannelOrder where
  | rgb
  | bgr
deriving DecidableEq, Repr

/-- The commands (40_convert.md R80, R89 to R92). The source order comes first and the target order second, as in the
assembler syntax (30_encoding.md R68). No row has an operand field: IN and OUT_CAP travel in the request (R63). -/
inductive Instr where
  /-- `CONVERT rgb, rgb`, CMD 0x0 (R89). -/
  | convertRgbRgb
  /-- `CONVERT bgr, rgb`, CMD 0x1 (R91). -/
  | convertBgrRgb
  /-- `CONVERT rgb, bgr`, CMD 0x4 (R90). -/
  | convertRgbBgr
  /-- `CONVERT bgr, bgr`, CMD 0x5 (R92). -/
  | convertBgrBgr
deriving DecidableEq, Repr

/-- A request as the host presents it (10_state.md R24, R26, R27; 70_reset_and_hazards.md R142). -/
structure Request where
  /-- The 4-bit command word, legal or reserved. -/
  cmd : CmdWord
  /-- IN, the input buffer. -/
  input : List Byte
  /-- OUT_CAP, the capacity in bytes of the output buffer the environment can grant. -/
  outCap : Nat
deriving DecidableEq, Repr

end Sys2Proof
end

