-- ==== Sys2Proof/WellFormed.lean ====
section
/-! DEFINITION. What a well-formed command word, instruction and request are. -/

namespace Sys2Proof

/-- A command word is valid if and only if bits 1 and 3 are 0 (30_encoding.md R64). Every other word is reserved
(R65). -/
def cmdValid (cmd : CmdWord) : Bool := cmd &&& 0b1010#4 == 0#4

/-- Well-formedness of an instruction. No row of the opcode table has a field, so no constructor has an operand that
could be out of range, and each is well formed. What can be ill formed is a word (`cmdValid`) or a request
(`Request.presentable`). -/
def Instr.wellFormed : Instr → Bool
  | .convertRgbRgb => true
  | .convertBgrRgb => true
  | .convertRgbBgr => true
  | .convertBgrBgr => true

/-- A host can present a request only if its input is no longer than `MAX_IN_LEN` (00_scope.md R8, 10_state.md R27,
92_eei_decisions.md D5). -/
def Request.presentable (c : Config) (r : Request) : Bool :=
  match c.maxInLen with
  | none => true
  | some m => decide (r.input.length ≤ m)

end Sys2Proof
end

