-- ==== Sys2Proof/Decode.lean ====
section
/-! DEFINITION. The decoder, the encoder, and the assembler's view of a command word (30_encoding.md R60 to R72). The
decoder reads exactly 4 bits and is total on all 16 words. -/

namespace Sys2Proof

/-- `SRC_ORDER = CMD[1:0]` (R61). -/
def srcField (cmd : CmdWord) : TagCode := cmd.extractLsb 1 0

/-- `DST_ORDER = CMD[3:2]` (R61). -/
def dstField (cmd : CmdWord) : TagCode := cmd.extractLsb 3 2

/-- The tag of a 2-bit code: 00 rgb, 01 bgr, and none for the reserved codes 10 and 11 (R62). -/
def orderOfCode (t : TagCode) : Option ChannelOrder :=
  if t = 0b00#2 then some .rgb
  else if t = 0b01#2 then some .bgr
  else none

/-- The 2-bit code of a tag (R62). -/
def ChannelOrder.code : ChannelOrder → TagCode
  | .rgb => 0b00#2
  | .bgr => 0b01#2

/-- The command with a given source and target order (R64). -/
def instrOfOrders (src dst : ChannelOrder) : Instr :=
  match src, dst with
  | .rgb, .rgb => .convertRgbRgb
  | .bgr, .rgb => .convertBgrRgb
  | .rgb, .bgr => .convertRgbBgr
  | .bgr, .bgr => .convertBgrBgr

/-- What a command word decodes to: a command, or a reserved word by the field that makes it one (R65). -/
inductive Decoded where
  | instr (i : Instr)
  | reservedSource
  | reservedTarget
  | reservedBoth
deriving DecidableEq, Repr

/-- The decoder (R64, R65). -/
def decode (cmd : CmdWord) : Decoded :=
  match orderOfCode (srcField cmd), orderOfCode (dstField cmd) with
  | some src, some dst => .instr (instrOfOrders src dst)
  | none, some _ => .reservedSource
  | some _, none => .reservedTarget
  | none, none => .reservedBoth

/-- The source order a command names (R64). -/
def Instr.source : Instr → ChannelOrder
  | .convertRgbRgb => .rgb
  | .convertBgrRgb => .bgr
  | .convertRgbBgr => .rgb
  | .convertBgrBgr => .bgr

/-- The target order a command names (R64). -/
def Instr.target : Instr → ChannelOrder
  | .convertRgbRgb => .rgb
  | .convertBgrRgb => .rgb
  | .convertRgbBgr => .bgr
  | .convertBgrBgr => .bgr

/-- `CMD = code(dst) << 2 | code(src)`: the target field stands above the source field (R61, R68). -/
def cmdOfCodes (src dst : TagCode) : CmdWord := dst ++ src

/-- The encoder (R68). -/
def encode (i : Instr) : CmdWord := cmdOfCodes i.source.code i.target.code

/-- The instruction the decoder reads from a row of the opcode table whose bits are `w`, given in `nbits` bits. CMD is
4 bits (R60), so a number that does not fit in 4 bits is no command word. -/
def decodeTableWord (nbits w : Nat) : Option Instr :=
  if w % 2 ^ nbits < 16 then
    match decode (BitVec.ofNat 4 (w % 2 ^ nbits)) with
    | .instr i => some i
    | .reservedSource => none
    | .reservedTarget => none
    | .reservedBoth => none
  else none

/-! The assembler's view (R68 to R72). Reserved codes have spellings too, so that error cases can be written. -/

/-- How a tag may be written: by name, or as `#k` with `k` from 0 to 3 (R69). -/
inductive TagText where
  | rgb
  | bgr
  | number (k : Fin 4)
deriving DecidableEq, Repr

/-- The code a written tag stands for. `#0` and `#1` are the same as `rgb` and `bgr` (R69). -/
def TagText.code : TagText → TagCode
  | .rgb => 0b00#2
  | .bgr => 0b01#2
  | .number k => BitVec.ofFin k

/-- The characters of a written tag (R69). -/
def TagText.spelling : TagText → String
  | .rgb => "rgb"
  | .bgr => "bgr"
  | .number 0 => "#0"
  | .number 1 => "#1"
  | .number 2 => "#2"
  | .number 3 => "#3"

/-- The written tag of a string. No other spelling is accepted (R69). -/
def tagTextOfSpelling (t : String) : Option TagText :=
  if t = "rgb" then some .rgb
  else if t = "bgr" then some .bgr
  else if t = "#0" then some (.number 0)
  else if t = "#1" then some (.number 1)
  else if t = "#2" then some (.number 2)
  else if t = "#3" then some (.number 3)
  else none

/-- `CONVERT src, dst` as a command word (R68). -/
def assemble (src dst : TagText) : CmdWord := cmdOfCodes src.code dst.code

/-- The pseudo-instruction `CONVERT_CS cs` stands for `CONVERT cs, cs` (R70). -/
def assembleCs (cs : TagText) : CmdWord := assemble cs cs

/-- What a disassembler prints for a word: the two tags, and whether it marks the word reserved (R72). -/
structure Disassembly where
  src : TagText
  dst : TagText
  reserved : Bool
deriving DecidableEq, Repr

/-- A field as the disassembler prints it: a valid one by name, a reserved one by number (R72). -/
def printedTag (t : TagCode) : TagText :=
  match orderOfCode t with
  | some .rgb => .rgb
  | some .bgr => .bgr
  | none => .number t.toFin

/-- The disassembler (R72). -/
def disassemble (cmd : CmdWord) : Disassembly :=
  ⟨printedTag (srcField cmd), printedTag (dstField cmd), !cmdValid cmd⟩

/-- The line of text the disassembler prints, without its reserved mark (R68, R72). -/
def Disassembly.text (d : Disassembly) : String :=
  "CONVERT " ++ d.src.spelling ++ ", " ++ d.dst.spelling

end Sys2Proof
end

