-- ==== Sys2Proof/Machine/State.lean ====
section
/-! DEFINITION. The state of the block as plain data, why a step can stop, and the state after reset. INVENTORY.md lists
every piece of state of the spec and the field that holds it. -/

namespace Sys2Proof.Machine

/-- PHASE, one bit of control state (10_state.md R34). -/
inductive Phase where
  /-- No request is in progress and the block can accept one. -/
  | idle
  /-- One request has been accepted and has not yet had its response. -/
  | busy
deriving DecidableEq, Repr

/-- What the block latches when it accepts a request (R24, R26; 70_reset_and_hazards.md R143). The input buffer is not
copied: its bytes stand in the space IN of State. -/
structure Latched where
  /-- CMD, 4 bits. -/
  cmd : CmdWord
  /-- OUT_CAP, in bytes. -/
  outCap : Nat
deriving DecidableEq, Repr

/-- STATUS, the 2-bit result code of a response, by its four names (R25; 60_exceptions.md R120). -/
inductive Status where
  | ok
  | malformedInput
  | invalidChannelOrder
  | allocationFailure
deriving DecidableEq, Repr

/-- The three errors a request can raise (60_exceptions.md R120, R121). -/
inductive RequestError where
  | malformedInput
  | invalidChannelOrder
  | allocationFailure
deriving DecidableEq, Repr

/-- A response: what the host observes of a request (70_reset_and_hazards.md R151). -/
structure Response where
  status : Status
  /-- OUT as handed over: 2n bytes on OK, empty on an error (R28). -/
  out : List Byte
deriving DecidableEq, Repr

/-- The OUT storage of the current request: the bytes written so far, by index (20_memory.md R42). An index that is not
listed has not been written and reads as no value, so no entry can equal what an unlisted index reads as. -/
structure Memory where
  cells : List Host.Cell
deriving DecidableEq, Repr

/-- The canonical form: indices strictly rising. -/
abbrev Memory.wf (m : Memory) : Prop := m.cells.Pairwise (fun x y => x.1 < y.1)

/-- Nothing written. -/
def Memory.empty : Memory := ⟨[]⟩

/-- What the host does next (70_reset_and_hazards.md R150, log 4). No move breaks a host duty of R144 to R147. -/
inductive HostMove where
  /-- Presents a request, and leaves it presented until the block is IDLE and accepts it. -/
  | request (r : Request)
  /-- Makes no move until the block is IDLE. -/
  | wait
  /-- Resets the block, whatever its phase. -/
  | reset
deriving DecidableEq, Repr

/-- The machine. The transient datapath values of R29 and the hidden state of R31 exist only inside the step that serves
a request. -/
structure State where
  /-- The parameters of R8, fixed for the block (log 1). -/
  config : Config
  /-- PHASE (R34). -/
  phase : Phase
  /-- CMD and OUT_CAP, which exist from acceptance to response (R23, R24, R26). -/
  latched : Option Latched
  /-- IN, the read-only space of L bytes (R27, R40). The storage is the host's: it outlives the request (R56, R99) and is
  replaced only when the next request is accepted (log 3). -/
  input : List Byte
  /-- OUT being built, the write-only space (R28, R40, R42). -/
  out : Memory
  /-- STATUS and OUT of the response just given (R25, R28). None while a request is in progress and after reset (log 2). -/
  response : Option Response
  /-- MODEL: the moves the host makes next, oldest first (log 4). -/
  host : List HostMove
  /-- MODEL: how many requests resets have aborted; numbers the free values of R141 (log 5). -/
  draw : Nat
deriving DecidableEq, Repr

/-- The model's faults. The spec says that none of these accesses happens (R41, R42, R103); a run from a state that meets
`State.Inv` reaches none. All are safe: the model stops. -/
inductive Fault where
  /-- Raised by `memRead`: a read of IN at an index of L or more, which R41 has a model treat as a fault. Safe. -/
  | inReadOutOfRange (a : Nat)
  /-- Raised by `memWrite`: a write of OUT at an index of 2n or more, where the space OUT has no byte (R40, R42).
  DESIGN CHOICE (log 9). Safe. -/
  | outWriteOutOfRange (a : Nat)
  /-- Raised by `collectOut`: an OK response would hand over an OUT byte that no pixel wrote (R28, R48).
  DESIGN CHOICE (log 9). Safe. -/
  | outNotWritten (a : Nat)
  /-- Raised by a command run while no request is in progress: a command exists only in a request (R24, R60),
  and the spec says nothing of one outside it. DESIGN CHOICE (log 11). Safe. -/
  | noRequest
deriving DecidableEq, Repr

/-- The model's refusals. -/
inductive Refusal where
  /-- Raised by an arm of `exec` for a row that has no meaning. No arm of this model does. Safe. -/
  | notModelled (mnemonic : String)
  /-- Raised when the host presents an input of `len` bytes, longer than MAX_IN_LEN: such a request cannot be presented
  (92_eei_decisions.md D5, 93_implementation_defined.md I11, log 7). Safe. -/
  | inputTooLong (len : Nat)
deriving DecidableEq, Repr

/-- The block with parameters `c` right after reset (10_state.md R33). -/
def State.resetWith (c : Config) : State :=
  ⟨c, .idle, none, [], Memory.empty, none, [], 0⟩

/-- The block right after reset, with every parameter at the spec's default (R8, R33). -/
def State.reset : State := State.resetWith Config.default

end Sys2Proof.Machine
end

