-- ==== Sys2Proof/Machine/Ops.lean ====
section
/-! DEFINITION. The named operations over the two spaces of the block, the response, raising an error, accepting a
request and resetting: every meaning and every step goes through these. -/

namespace Sys2Proof.Machine

/-! The OUT storage. -/

/-- Insert or replace the byte at index `a`, keeping the indices rising. -/
def insertCell (a : Nat) (v : Byte) : List Host.Cell → List Host.Cell
  | [] => [(a, v)]
  | (b, w) :: rest =>
    if a < b then (a, v) :: (b, w) :: rest
    else if a = b then (a, v) :: rest
    else (b, w) :: insertCell a v rest

/-- The byte at index `a`, if one is listed. -/
def lookupCell (a : Nat) : List Host.Cell → Option Byte
  | [] => none
  | (b, w) :: rest => if a = b then some w else lookupCell a rest

/-- Read one byte of an OUT storage: no value where nothing has been written. -/
def Memory.read (m : Memory) (a : Nat) : Option Byte := lookupCell a m.cells

/-- Write one byte of an OUT storage. -/
def Memory.write (m : Memory) (a : Nat) (v : Byte) : Memory := ⟨insertCell a v m.cells⟩

/-! Lengths and indices (40_convert.md R100, R103): natural numbers, without wrap-around. -/

/-- `n = L / 3`, the pixel count (R80). -/
def pixelCount (len : Nat) : Nat := len / 3

/-- `3i + k`, the index in IN of byte `k` of pixel `i` (R103). -/
def inIndex (i k : Nat) : Nat := 3 * i + k

/-- `2i + j`, the index in OUT of byte `j` of pixel `i` (R103). -/
def outIndex (i j : Nat) : Nat := 2 * i + j

/-- `MemRead(IN, a, 1)` (20_memory.md R41). An index outside IN is a model fault, never a value. -/
def memRead (s : State) (a : Nat) : Except Fault Byte :=
  match s.input[a]? with
  | some b => .ok b
  | none => .error (.inReadOutOfRange a)

/-- `MemWrite(OUT, a, 1, v)` (R42). The space OUT has the indices below `2n` (R40). -/
def memWrite (a : Nat) (v : Byte) (s : State) : Except Fault State :=
  if a < 2 * pixelCount s.input.length then .ok { s with out := s.out.write a v }
  else .error (.outWriteOutOfRange a)

/-- The bytes of an OUT storage at the listed indices, in that order. -/
def collectOut (m : Memory) : List Nat → Except Fault (List Byte)
  | [] => .ok []
  | a :: rest =>
    match m.read a with
    | none => .error (.outNotWritten a)
    | some b =>
      match collectOut m rest with
      | .error f => .error f
      | .ok bs => .ok (b :: bs)

/-- The order in which `lanes` lanes visit `n` pixels, DESIGN CHOICE (log 6): each lane owns a contiguous range of
pixels, and in round `j` every lane does the `j`-th pixel of its range. The spec leaves the order free, because every
order gives the same OUT (10_state.md R21, 40_convert.md R96). With one lane it is the in-order visit. Lanes beyond the
number of pixels have nothing to do. -/
def laneOrder (lanes n : Nat) : List Nat :=
  let k := min lanes n
  let share := (n + k - 1) / k
  (List.range share).flatMap fun j =>
    ((List.range k).map fun lane => lane * share + j).filter (· < n)

/-! Giving a response. -/

/-- The STATUS an error answers with (60_exceptions.md R120). -/
def RequestError.status : RequestError → Status
  | .malformedInput => .malformedInput
  | .invalidChannelOrder => .invalidChannelOrder
  | .allocationFailure => .allocationFailure

/-- Give the response: STATUS is written, OUT is handed over, PHASE becomes IDLE and the block keeps no reference to the
request or to its buffers (R25, R34; 20_memory.md R56). IN is as it was (40_convert.md R99). -/
def respond (st : Status) (bytes : List Byte) (s : State) : State :=
  { s with phase := .idle, latched := none, out := Memory.empty, response := some ⟨st, bytes⟩ }

/-- `raise E()` (60_exceptions.md R122): the request ends with the code of E and an empty OUT. Nothing is saved, and there
is nothing to return from (R129). -/
def raiseError (e : RequestError) (s : State) : State := respond e.status [] s

/-! What the host can do to the block. -/

/-- Accept a request (70_reset_and_hazards.md R143): latch CMD and OUT_CAP, take IN, and go BUSY. OUT is storage in which
nothing has been written yet, and no response is pending (10_state.md R23, R28). -/
def accept (r : Request) (s : State) : State :=
  { s with
    phase := .busy
    latched := some ⟨r.cmd, r.outCap⟩
    input := r.input
    out := Memory.empty
    response := none }

/-- How many bytes of OUT storage the request in progress may have written: indices below `2n` (R42) within the OUT_CAP
bytes the host granted (R150). -/
def abandonedBound (s : State) : Nat :=
  match s.latched with
  | some l => min (2 * pixelCount s.input.length) l.outCap
  | none => 0

/-- The OUT storage that an abort leaves: at each index nothing, or any byte (R141). The bytes are free values. -/
def abandonedOut (s : State) : Memory :=
  ⟨(List.range (abandonedBound s)).filterMap fun a =>
    (Config.abandonedByte s.draw a).map fun b => (a, b)⟩

/-- Reset (R140, R141, R33): PHASE becomes IDLE and no response is pending. A request in progress is aborted: it gets no
response, and its OUT storage is left with unspecified bytes. IN is unchanged. -/
def resetBlock (s : State) : State :=
  match s.phase with
  | .idle => { s with response := none, latched := none }
  | .busy =>
    { s with
      phase := .idle
      latched := none
      response := none
      out := abandonedOut s
      draw := s.draw + 1 }

end Sys2Proof.Machine
end

