-- ==== Sys2Proof/Machine/Operands.lean ====
section
/-! DEFINITION. The operands of CONVERT (30_encoding.md R63): the two tag fields of CMD, used without extension, and the
pixel records of IN. There are no immediates. -/

namespace Sys2Proof.Machine

/-- The pixel record of index `i`, `(B0, B1, B2) = (IN[3i], IN[3i+1], IN[3i+2])` (40_convert.md R82, step 2a). -/
def readRecord (s : State) (i : Nat) : Except Fault (Byte × Byte × Byte) :=
  match memRead s (inIndex i 0), memRead s (inIndex i 1), memRead s (inIndex i 2) with
  | .ok b0, .ok b1, .ok b2 => .ok (b0, b1, b2)
  | .error f, _, _ => .error f
  | .ok _, .error f, _ => .error f
  | .ok _, .ok _, .error f => .error f

/-- Write the output record of pixel `i`, O0 first (R87). -/
def writeRecord (i : Nat) (o : Byte × Byte) (s : State) : Except Fault State :=
  match memWrite (outIndex i 0) o.1 s with
  | .error f => .error f
  | .ok t => memWrite (outIndex i 1) o.2 t

end Sys2Proof.Machine
end

