-- ==== Sys2Proof/Machine/Datapath.lean ====
section
/-! DEFINITION. The per-pixel datapath (40_convert.md R82 to R88) and the loop that steps it over the pixels. -/

namespace Sys2Proof.Machine

/-- The channel values R, G, B of one pixel (R29). -/
structure Channels where
  r : Byte
  g : Byte
  b : Byte
deriving DecidableEq, Repr

/-- The quantized channels R5, G6, B5 of one pixel (R29). -/
structure Quantized where
  r5 : BitVec 5
  g6 : BitVec 6
  b5 : BitVec 5
deriving DecidableEq, Repr

/-- EXTRACT, the channel extractor (R82). -/
def extractChannels (b0 b1 b2 : Byte) (src : ChannelOrder) : Channels :=
  match src with
  | .rgb => ⟨b0, b1, b2⟩
  | .bgr => ⟨b2, b1, b0⟩

/-- QUANTIZE, the bit-quantizer (R83): the top 5, 6 and 5 bits. It truncates and does not round. -/
def quantize (c : Channels) : Quantized :=
  ⟨c.r.extractLsb 7 3, c.g.extractLsb 7 2, c.b.extractLsb 7 3⟩

/-- The packer: `P = (R5, G6, B5)` for the rgb layout (R85) and `P = (B5, G6, R5)` for the bgr layout (R86), the first
part in the top bits. -/
def pack (q : Quantized) (dst : ChannelOrder) : Sample :=
  match dst with
  | .rgb => q.r5 ++ q.g6 ++ q.b5
  | .bgr => q.b5 ++ q.g6 ++ q.r5

/-- The mask-and-shift form of the quantizer and the packer, in 16 bits (R84). The machine uses the field form. -/
def packMasked (c : Channels) (dst : ChannelOrder) : Sample :=
  let top := fun (x : Byte) => (x &&& 0xF8#8).setWidth 16 <<< 8
  let middle := (c.g &&& 0xFC#8).setWidth 16 <<< 3
  let low := fun (x : Byte) => (x &&& 0xF8#8).setWidth 16 >>> 3
  match dst with
  | .rgb => top c.r ||| middle ||| low c.b
  | .bgr => top c.b ||| middle ||| low c.r

/-- The big-endian output stage: `O0 = P[15:8]`, `O1 = P[7:0]` (R87, 20_memory.md R44). -/
def outputBytes (p : Sample) : Byte × Byte := (p.extractLsb 15 8, p.extractLsb 7 0)

/-- PIXEL, the complete per-pixel function (R88). -/
def pixel (b0 b1 b2 : Byte) (src dst : ChannelOrder) : Byte × Byte :=
  outputBytes (pack (quantize (extractChannels b0 b1 b2 src)) dst)

/-- Process pixel `i`: read its record, compute, write its two bytes (R80, steps 2a to 2e). -/
def pixelStep (src dst : ChannelOrder) (i : Nat) (s : State) : Except Fault State :=
  match readRecord s i with
  | .error f => .error f
  | .ok (b0, b1, b2) => writeRecord i (pixel b0 b1 b2 src dst) s

/-- Process the pixels of a list, in the list's order (R80, step 2). -/
def pixelLoop (src dst : ChannelOrder) : List Nat → State → Except Fault State
  | [], s => .ok s
  | i :: rest, s =>
    match pixelStep src dst i s with
    | .error f => .error f
    | .ok t => pixelLoop src dst rest t

end Sys2Proof.Machine
end

