-- ==== Sys2Proof/Machine/Flags.lean ====
section
/-! DEFINITION. The block has no flags or condition codes (10_state.md R22). Its one per-request outcome is STATUS. This
file holds the STATUS codes and the conditions that decide which error a request raises. -/

namespace Sys2Proof.Machine

/-- The 2-bit code of a STATUS (R25, 60_exceptions.md R120). -/
def Status.code : Status → BitVec 2
  | .ok => 0#2
  | .malformedInput => 1#2
  | .invalidChannelOrder => 2#2
  | .allocationFailure => 3#2

/-- The length check (40_convert.md R81, 20_memory.md R46): MalformedInput if the length is no multiple of 3, or no
multiple of LEN_MULTIPLE. -/
def lengthFails (c : Config) (len : Nat) : Bool :=
  decide (len % 3 ≠ 0) || decide (len % c.lenMultiple.value ≠ 0)

/-- The capacity check (60_exceptions.md R125): AllocationFailure if `2n > OUT_CAP`. -/
def capacityFails (len outCap : Nat) : Bool := decide (outCap < 2 * pixelCount len)

end Sys2Proof.Machine
end

