-- ==== Sys2Proof/Machine/Convert.lean ====
section
/-! DEFINITION. The meaning of the CONVERT family (40_convert.md R80) and of a reserved command word (30_encoding.md R65).
All follow the one pseudocode of R80. -/

namespace Sys2Proof.Machine

/-- Steps 1 to 3 of R80 once every check has passed: take an empty OUT, process every pixel, and respond OK with
`OUT[0 .. 2n-1]`. -/
def convertPixels (src dst : ChannelOrder) (s : State) : Host.Outcome State Fault Refusal :=
  let n := pixelCount s.input.length
  match pixelLoop src dst (laneOrder s.config.lanes n) { s with out := Memory.empty } with
  | .error f => .fault f
  | .ok t =>
    match collectOut t.out (List.range (2 * n)) with
    | .error f => .fault f
    | .ok bytes => .next (respond .ok bytes t)

/-- The pseudocode of R80, on the raw tag fields of a command word: the three checks in the order of their priority
(60_exceptions.md R126), then the pixels. A command exists only in a request, so without one it is a model fault,
DESIGN CHOICE (log 11). -/
def serve (src dst : TagCode) (s : State) : Host.Outcome State Fault Refusal :=
  match s.phase, s.latched with
  | .busy, some l =>
    if lengthFails s.config s.input.length then .next (raiseError .malformedInput s)
    else
      match orderOfCode src, orderOfCode dst with
      | some so, some d =>
        if capacityFails s.input.length l.outCap then .next (raiseError .allocationFailure s)
        else convertPixels so d s
      | none, _ => .next (raiseError .invalidChannelOrder s)
      | some _, none => .next (raiseError .invalidChannelOrder s)
  | .idle, _ => .fault .noRequest
  | .busy, none => .fault .noRequest

/-- `CONVERT rgb, rgb` (R89). -/
def execConvertRgbRgb (s : State) : Host.Outcome State Fault Refusal := serve 0b00#2 0b00#2 s

/-- `CONVERT bgr, rgb` (R91). -/
def execConvertBgrRgb (s : State) : Host.Outcome State Fault Refusal := serve 0b01#2 0b00#2 s

/-- `CONVERT rgb, bgr` (R90). -/
def execConvertRgbBgr (s : State) : Host.Outcome State Fault Refusal := serve 0b00#2 0b01#2 s

/-- `CONVERT bgr, bgr` (R92). -/
def execConvertBgrBgr (s : State) : Host.Outcome State Fault Refusal := serve 0b01#2 0b01#2 s

/-- A request whose command word is reserved (30_encoding.md R65): it is served like any other, and the tag check of R80
raises InvalidChannelOrder unless MalformedInput comes first. -/
def execReserved (cmd : CmdWord) (s : State) : Host.Outcome State Fault Refusal :=
  serve (srcField cmd) (dstField cmd) s

end Sys2Proof.Machine
end

