-- ==== Sys2Proof/Machine/Dispatch.lean ====
section
/-! DEFINITION. One arm for each command. -/

namespace Sys2Proof.Machine

/-- Run a command at a state. -/
def exec (i : Instr) (s : State) : Host.Outcome State Fault Refusal :=
  match i with
  | .convertRgbRgb => Sys2Proof.Machine.execConvertRgbRgb s
  | .convertBgrRgb => Sys2Proof.Machine.execConvertBgrRgb s
  | .convertRgbBgr => Sys2Proof.Machine.execConvertRgbBgr s
  | .convertBgrBgr => Sys2Proof.Machine.execConvertBgrBgr s

end Sys2Proof.Machine
end

