-- ==== Sys2Proof/Machine/Sequencer.lean ====
section
/-! DEFINITION. What one step of the machine does, by phase: the host's turn in IDLE, the block's turn in BUSY, and reset
in either. Step.lean puts the parts together. -/

namespace Sys2Proof.Machine

/-- The block's turn in BUSY: decode the latched command word and run it (30_encoding.md R60, R64, R65). The host's moves
stay where they are: a request presented now is not admitted (70_reset_and_hazards.md R144). -/
def runLatched (s : State) : Host.Outcome State Fault Refusal :=
  match s.latched with
  | none => .fault .noRequest
  | some l =>
    match decode l.cmd with
    | .instr i => exec i s
    | .reservedSource => execReserved l.cmd s
    | .reservedTarget => execReserved l.cmd s
    | .reservedBoth => execReserved l.cmd s

/-- The host presents a request in IDLE: the block accepts it, unless its input is longer than the host can present
(R142, R143, log 7). -/
def present (r : Request) (s : State) : Host.Outcome State Fault Refusal :=
  if r.presentable s.config then .next (accept r s)
  else .refused (.inputTooLong r.input.length)

/-- The host's turn in IDLE: its next move is taken. With no move left the block stays as it is, able to accept a
request (10_state.md R34). -/
def hostTurn (s : State) : Host.Outcome State Fault Refusal :=
  match s.host with
  | [] => .next s
  | .request r :: rest => present r { s with host := rest }
  | .wait :: rest => .next { s with host := rest }
  | .reset :: rest => .next (resetBlock { s with host := rest })

/-- The block's turn in BUSY, unless the host resets it (R141). -/
def blockTurn (s : State) : Host.Outcome State Fault Refusal :=
  match s.host with
  | .reset :: rest => .next (resetBlock { s with host := rest })
  | [] => runLatched s
  | .request _ :: _ => runLatched s
  | .wait :: _ => runLatched s

/-- Keep a reset at the head of the host's moves from coming before the block's next turn. -/
def holdReset : List HostMove → List HostMove
  | .reset :: rest => .wait :: .reset :: rest
  | [] => []
  | .request r :: rest => .request r :: rest
  | .wait :: rest => .wait :: rest

/-- The capacity a request has when a command word is put into the machine without one: that of the request in progress,
or else as many bytes as the output needs. -/
def fetchCapacity (s : State) : Nat :=
  match s.latched with
  | some l => l.outCap
  | none => 2 * pixelCount s.input.length

end Sys2Proof.Machine
end

