-- ==== Sys2Proof/Machine/Step.lean ====
section
/-! DEFINITION. One step of the machine, and how a command word is put where the next step runs it. -/

namespace Sys2Proof.Machine

/-- One step: the block's turn while a request is in progress, the host's turn otherwise. -/
def step (s : State) : Host.Outcome State Fault Refusal :=
  match s.phase with
  | .idle => hostTurn s
  | .busy => blockTurn s

/-- `s` with the command word `w` accepted as the request in progress, on the input that stands in IN, so that the very
next step runs it (log 4). The block fetches no instruction stream: a command word reaches it in a request (30_encoding.md
R60), so this stands for the acceptance of one. -/
def State.withFetchWord (s : State) (nbits w : Nat) : State :=
  accept ⟨BitVec.ofNat 4 (w % 2 ^ nbits), s.input, fetchCapacity s⟩ { s with host := holdReset s.host }

end Sys2Proof.Machine
end

