-- ==== Sys2Proof/Safety.lean ====
section
/-! DEFINITION. The terms in which claims about the machine are stated: what it is to be serving a request, the answer
the spec gives a request, what ends with a response and what stays, and the invariant of a run. None of these is used by
the machine. -/

namespace Sys2Proof.Machine

/-- `s` is serving a request with command word `cmd` and capacity `outCap`, on the input in IN. -/
def Serving (s : State) (cmd : CmdWord) (outCap : Nat) : Prop :=
  s.phase = .busy ∧ s.latched = some ⟨cmd, outCap⟩

/-- The host does not reset the block at its next step. -/
def NoReset (s : State) : Prop := ∀ rest, s.host ≠ .reset :: rest

/-- The length of the request's input passes the check of 20_memory.md R46. -/
def LengthOk (s : State) : Prop :=
  s.input.length % 3 = 0 ∧ s.input.length % s.config.lenMultiple.value = 0

/-- The in-order map of 40_convert.md R96: `OUT = concat over i = 0..n-1 of PIXEL(IN[3i], IN[3i+1], IN[3i+2])`. -/
def pixelMap (src dst : ChannelOrder) : List Byte → List Byte
  | b0 :: b1 :: b2 :: rest =>
    (pixel b0 b1 b2 src dst).1 :: (pixel b0 b1 b2 src dst).2 :: pixelMap src dst rest
  | [] => []
  | [_] => []
  | [_, _] => []

/-- The tag of a valid field, read from its low bit (30_encoding.md R62). -/
def orderOfBit (b : Bool) : ChannelOrder := if b then .bgr else .rgb

/-- The answer the spec gives a request, by the pseudocode of 40_convert.md R80 with the in-order map of R96. It reads
the command word bit by bit and shares nothing with the decoder, the loop or the memories of the machine. -/
def answer (m : LenMultiple) (cmd : CmdWord) (input : List Byte) (outCap : Nat) : Response :=
  if input.length % 3 ≠ 0 ∨ input.length % m.value ≠ 0 then ⟨.malformedInput, []⟩
  else if cmd.getLsbD 1 = true ∨ cmd.getLsbD 3 = true then ⟨.invalidChannelOrder, []⟩
  else if outCap < 2 * (input.length / 3) then ⟨.allocationFailure, []⟩
  else ⟨.ok, pixelMap (orderOfBit (cmd.getLsbD 0)) (orderOfBit (cmd.getLsbD 2)) input⟩

/-- No request is in progress and the block holds no part of one (20_memory.md R56). -/
def Ended (t : State) : Prop := t.phase = .idle ∧ t.latched = none ∧ t.out = Memory.empty

/-- What no command changes: the parameters, IN, the host's moves and the number of aborts. -/
def KeepsRest (s t : State) : Prop :=
  t.config = s.config ∧ t.input = s.input ∧ t.host = s.host ∧ t.draw = s.draw

/-- `o` is a next state in which the request that `s` was serving has ended with response `p`, and nothing else
changed. -/
def EndsWith (o : Host.Outcome State Fault Refusal) (s : State) (p : Response) : Prop :=
  ∃ t, o = .next t ∧ t.response = some p ∧ Ended t ∧ KeepsRest s t

/-- What the closed form of a variant says (40_convert.md R89 to R92). `first` and `second` give the two output bytes of
a pixel from its record. With the length and the capacity in order the command ends with OK and these bytes; otherwise
it ends with the error of R80 and no output. -/
def VariantMeans (i : Instr) (first second : Byte → Byte → Byte → Byte) : Prop :=
  ∀ (s : State) (cmd : CmdWord) (outCap : Nat), Serving s cmd outCap →
    (LengthOk s → 2 * (s.input.length / 3) ≤ outCap →
      ∃ bytes, EndsWith (exec i s) s ⟨.ok, bytes⟩ ∧ bytes.length = 2 * (s.input.length / 3) ∧
        ∀ k b0 b1 b2, s.input[3 * k]? = some b0 → s.input[3 * k + 1]? = some b1 → s.input[3 * k + 2]? = some b2 →
          bytes[2 * k]? = some (first b0 b1 b2) ∧ bytes[2 * k + 1]? = some (second b0 b1 b2)) ∧
    (¬ LengthOk s → EndsWith (exec i s) s ⟨.malformedInput, []⟩) ∧
    (LengthOk s → outCap < 2 * (s.input.length / 3) → EndsWith (exec i s) s ⟨.allocationFailure, []⟩)

/-- Two inputs that differ only in the bits the quantizer drops (40_convert.md R94): bits 2 to 0 of the first and third
byte of each record, and bits 1 to 0 of the second. -/
def SameKeptBits (x y : List Byte) : Prop :=
  x.length = y.length ∧
    ∀ k a b, x[k]? = some a → y[k]? = some b →
      (k % 3 = 1 → a.extractLsb 7 2 = b.extractLsb 7 2) ∧ (k % 3 ≠ 1 → a.extractLsb 7 3 = b.extractLsb 7 3)

/-- The same block with another number of lanes. -/
def State.withLanes (s : State) (lanesMinusOne : Nat) : State :=
  { s with config := { s.config with lanesMinusOne := lanesMinusOne } }

/-- The invariant of a run. A request is latched exactly while PHASE is BUSY (10_state.md R23, R34), and while it is there
has been no output and no response (R48, 60_exceptions.md R134), and its input could be presented (R8). The OUT storage is
in canonical form. A response obeys the size law against the IN it was computed from: an OK one has passed the length
check and holds `2n` bytes, an error one holds none (40_convert.md R97). -/
structure State.Inv (s : State) : Prop where
  latched_iff_busy : s.phase = .busy ↔ s.latched.isSome = true
  busy_fresh : s.phase = .busy → s.out = Memory.empty ∧ s.response = none
  busy_presentable : ∀ m, s.phase = .busy → s.config.maxInLen = some m → s.input.length ≤ m
  out_wf : s.out.wf
  ok_size : ∀ bytes, s.response = some ⟨.ok, bytes⟩ → LengthOk s ∧ bytes.length = 2 * (s.input.length / 3)
  error_empty : ∀ p, s.response = some p → p.status ≠ .ok → p.out = []

/-- `k` steps, stopping at the first fault or refusal. -/
def runSteps : Nat → State → Host.Outcome State Fault Refusal
  | 0, s => .next s
  | k + 1, s =>
    match step s with
    | .next t => runSteps k t
    | .fault f => .fault f
    | .refused r => .refused r

end Sys2Proof.Machine
end

