-- ==== Sys2Proof/Certificates/Slice0/Obligations.lean ====
section
/-! DEFINITION. The statements about the model, each from the rules of spec/ its docstring names. A statement quantifies
over every parameter setting of R8, because the parameters stand in State. -/

open Sys2Proof Sys2Proof.Machine

/-! Command words (30_encoding.md). -/

/-- R61, R62, R68. Decoding an encoded command gives it back, and each command has one word. -/
def Obligations.EncodeDecodeAgree : Prop :=
  ∀ i : Instr, decode (encode i) = .instr i ∧ ∀ cmd, decode cmd = .instr i → cmd = encode i

/-- R64, the opcode map. Four words are commands, every other word is reserved, and a word is valid if and only if
`CMD & 0b1010 = 0`. -/
def Obligations.OpcodeMapOfSixteenWords : Prop :=
  decode 0x0#4 = .instr .convertRgbRgb ∧ decode 0x1#4 = .instr .convertBgrRgb ∧
  decode 0x4#4 = .instr .convertRgbBgr ∧ decode 0x5#4 = .instr .convertBgrBgr ∧
  (∀ cmd : CmdWord, cmd ≠ 0x0#4 → cmd ≠ 0x1#4 → cmd ≠ 0x4#4 → cmd ≠ 0x5#4 → ∀ i, decode cmd ≠ .instr i) ∧
  ∀ cmd : CmdWord, (∃ i, decode cmd = .instr i) ↔ cmd &&& 0b1010#4 = 0#4

/-- Rows of spec/opcode_table.json. Their words, numbered as the table numbers them, decode to the rows' commands.
That CMD is the low 4 bits of the table's byte is log 10 (DEDUCED). -/
def Obligations.TableWordsDecode : Prop :=
  decodeTableWord 8 0 = some .convertRgbRgb ∧ decodeTableWord 8 1 = some .convertBgrRgb ∧
  decodeTableWord 8 4 = some .convertRgbBgr ∧ decodeTableWord 8 5 = some .convertBgrBgr ∧
  decodeTableWord 8 2 = none ∧ decodeTableWord 8 8 = none ∧ decodeTableWord 8 15 = none

/-- R68, R69, R72. What the disassembler prints assembles back to the same word, and it marks exactly the words with bit
1 or bit 3 set as reserved. -/
def Obligations.DisassembleAssembleRoundTrip : Prop :=
  ∀ cmd : CmdWord,
    assemble (disassemble cmd).src (disassemble cmd).dst = cmd ∧
    ((disassemble cmd).reserved = true ↔ (cmd.getLsbD 1 = true ∨ cmd.getLsbD 3 = true))

/-- R70. `CONVERT_CS` expands to `CONVERT` with its tag twice, and its four words are 0x0, 0x5, 0xA and 0xF. -/
def Obligations.ConvertCsExpands : Prop :=
  (∀ cs, assembleCs cs = assemble cs cs) ∧
  assembleCs .rgb = 0x0#4 ∧ assembleCs .bgr = 0x5#4 ∧
  assembleCs (.number 2) = 0xA#4 ∧ assembleCs (.number 3) = 0xF#4

/-! The datapath (40_convert.md R82 to R88, R100, R106). -/

/-- R82. The channel extractor: R, G, B are the bytes in order for rgb, and with the outer two exchanged for bgr. -/
def Obligations.ExtractorSwapsRedAndBlue : Prop :=
  ∀ b0 b1 b2 : Byte,
    extractChannels b0 b1 b2 .rgb = ⟨b0, b1, b2⟩ ∧ extractChannels b0 b1 b2 .bgr = ⟨b2, b1, b0⟩

/-- R83, R100. The quantizer is a floor: R5, G6 and B5 are the channels divided by 8, 4 and 8. -/
def Obligations.QuantizeIsFloorDivision : Prop :=
  ∀ c : Channels,
    (quantize c).r5.toNat = c.r.toNat / 8 ∧ (quantize c).g6.toNat = c.g.toNat / 4 ∧
    (quantize c).b5.toNat = c.b.toNat / 8

/-- R84. The mask-and-shift form of the quantizer and packer gives the same sample as the field form, for every pixel and
both layouts. -/
def Obligations.MaskedFormEqualsFieldForm : Prop :=
  ∀ (c : Channels) (dst : ChannelOrder), packMasked c dst = pack (quantize c) dst

/-- R85, R86. Where the packer puts the fields: G6 in P[10:5] in both layouts, R5 on top in the rgb layout and B5 on top in
the bgr layout. -/
def Obligations.PackerFieldPositions : Prop :=
  ∀ q : Quantized,
    (pack q .rgb).extractLsb 15 11 = q.r5 ∧ (pack q .rgb).extractLsb 10 5 = q.g6 ∧
    (pack q .rgb).extractLsb 4 0 = q.b5 ∧
    (pack q .bgr).extractLsb 15 11 = q.b5 ∧ (pack q .bgr).extractLsb 10 5 = q.g6 ∧
    (pack q .bgr).extractLsb 4 0 = q.r5

/-- R45, R87. The two output bytes read as one big-endian word give P, and as a little-endian word `(P[7:0], P[15:8])`. -/
def Obligations.OutputPairReadsBackAsSample : Prop :=
  ∀ p : Sample,
    (outputBytes p).1 ++ (outputBytes p).2 = p ∧
    (outputBytes p).2 ++ (outputBytes p).1 = p.extractLsb 7 0 ++ p.extractLsb 15 8

/-- R106. A white pixel and a black pixel, under every pair of tags. -/
def Obligations.WhiteAndBlackPixels : Prop :=
  ∀ src dst : ChannelOrder,
    pack (quantize (extractChannels 0xFF#8 0xFF#8 0xFF#8 src)) dst = 0xFFFF#16 ∧
    pixel 0xFF#8 0xFF#8 0xFF#8 src dst = (0xFF#8, 0xFF#8) ∧
    pack (quantize (extractChannels 0#8 0#8 0#8 src)) dst = 0#16 ∧ pixel 0#8 0#8 0#8 src dst = (0#8, 0#8)

/-- R94. PIXEL does not depend on bits 2 to 0 of B0 and B2, or on bits 1 to 0 of B1. -/
def Obligations.PixelIgnoresDroppedBits : Prop :=
  ∀ (a0 a1 a2 b0 b1 b2 : Byte) (src dst : ChannelOrder),
    a0.extractLsb 7 3 = b0.extractLsb 7 3 → a1.extractLsb 7 2 = b1.extractLsb 7 2 →
    a2.extractLsb 7 3 = b2.extractLsb 7 3 → pixel a0 a1 a2 src dst = pixel b0 b1 b2 src dst

/-! The two spaces (20_memory.md). -/

/-- R41, R49. A read of IN inside the buffer gives the byte the request brought; a read outside it is a model fault, and
never a value. -/
def Obligations.ReadsOfInputInAndOutOfRange : Prop :=
  ∀ (s : State) (a : Nat),
    (∀ h : a < s.input.length, memRead s a = .ok s.input[a]) ∧
    (s.input.length ≤ a → memRead s a = .error (.inReadOutOfRange a))

/-- A write of OUT below `2n` puts its byte at its index, leaves every other index and everything but OUT as it was (R42,
R49). The rest is the MODEL'S CHOICE, log 9 (DESIGN CHOICE): the canonical form that is kept, and that a write at `2n` or
above, where R40 gives the space OUT no byte, is a model fault. -/
def Obligations.WriteOfOutputFrame : Prop :=
  ∀ (s : State) (a : Nat) (v : Byte),
    (a < 2 * (s.input.length / 3) →
      ∃ m, memWrite a v s = .ok { s with out := m } ∧ m.read a = some v ∧
        (∀ c, c ≠ a → m.read c = s.out.read c) ∧ (s.out.wf → m.wf)) ∧
    (2 * (s.input.length / 3) ≤ a → memWrite a v s = .error (.outWriteOutOfRange a))

/-- The MODEL'S CHOICE, log 9 (DESIGN CHOICE): two OUT storages in the model's canonical form that read the same at every
index are equal. -/
def Obligations.CanonicalStoragesAreExtensional : Prop :=
  ∀ m m' : Memory, m.wf → m'.wf → (∀ a, m.read a = m'.read a) → m = m'

/-- R95, R103. Processing pixel `i < n` issues no access outside its space, writes the two bytes of its own record as PIXEL
gives them from its own three input bytes, and leaves every other index of OUT and everything else as it was. -/
def Obligations.PixelWritesOnlyItsRecord : Prop :=
  ∀ (src dst : ChannelOrder) (s : State) (i : Nat) (b0 b1 b2 : Byte),
    s.input[3 * i]? = some b0 → s.input[3 * i + 1]? = some b1 → s.input[3 * i + 2]? = some b2 →
    ∃ m, pixelStep src dst i s = .ok { s with out := m } ∧
      m.read (2 * i) = some (pixel b0 b1 b2 src dst).1 ∧ m.read (2 * i + 1) = some (pixel b0 b1 b2 src dst).2 ∧
      ∀ a, a ≠ 2 * i → a ≠ 2 * i + 1 → m.read a = s.out.read a

/-- R96. Every order of processing the pixels gives the same OUT, the in-order map. `order` is any list that visits each of
the `n` pixels once, whatever split among lanes it comes from. -/
def Obligations.EveryVisitingOrderGivesInOrderMap : Prop :=
  ∀ (src dst : ChannelOrder) (s : State) (order : List Nat),
    order.Perm (List.range (s.input.length / 3)) →
    ∃ m, pixelLoop src dst order { s with out := Memory.empty } = .ok { s with out := m } ∧
      collectOut m (List.range (2 * (s.input.length / 3))) = .ok (pixelMap src dst s.input)

/-! The commands (40_convert.md R89 to R92). -/

/-- R89. `CONVERT rgb, rgb`: `P = (B0[7:3], B1[7:2], B2[7:3])`, and the bytes, the errors and the frame. -/
def Obligations.ConvertRgbRgbResult : Prop :=
  (∀ b0 b1 b2 : Byte, pack (quantize (extractChannels b0 b1 b2 .rgb)) .rgb =
    b0.extractLsb 7 3 ++ b1.extractLsb 7 2 ++ b2.extractLsb 7 3) ∧
  VariantMeans .convertRgbRgb (fun b0 b1 _ => b0.extractLsb 7 3 ++ b1.extractLsb 7 5)
    (fun _ b1 b2 => b1.extractLsb 4 2 ++ b2.extractLsb 7 3)

/-- R90. `CONVERT rgb, bgr`: `P = (B2[7:3], B1[7:2], B0[7:3])`, and the bytes, the errors and the frame. -/
def Obligations.ConvertRgbBgrResult : Prop :=
  (∀ b0 b1 b2 : Byte, pack (quantize (extractChannels b0 b1 b2 .rgb)) .bgr =
    b2.extractLsb 7 3 ++ b1.extractLsb 7 2 ++ b0.extractLsb 7 3) ∧
  VariantMeans .convertRgbBgr (fun _ b1 b2 => b2.extractLsb 7 3 ++ b1.extractLsb 7 5)
    (fun b0 b1 _ => b1.extractLsb 4 2 ++ b0.extractLsb 7 3)

/-- R91. `CONVERT bgr, rgb`: `P = (B2[7:3], B1[7:2], B0[7:3])`, and the bytes, the errors and the frame. -/
def Obligations.ConvertBgrRgbResult : Prop :=
  (∀ b0 b1 b2 : Byte, pack (quantize (extractChannels b0 b1 b2 .bgr)) .rgb =
    b2.extractLsb 7 3 ++ b1.extractLsb 7 2 ++ b0.extractLsb 7 3) ∧
  VariantMeans .convertBgrRgb (fun _ b1 b2 => b2.extractLsb 7 3 ++ b1.extractLsb 7 5)
    (fun b0 b1 _ => b1.extractLsb 4 2 ++ b0.extractLsb 7 3)

/-- R92. `CONVERT bgr, bgr`: `P = (B0[7:3], B1[7:2], B2[7:3])`, and the bytes, the errors and the frame. -/
def Obligations.ConvertBgrBgrResult : Prop :=
  (∀ b0 b1 b2 : Byte, pack (quantize (extractChannels b0 b1 b2 .bgr)) .bgr =
    b0.extractLsb 7 3 ++ b1.extractLsb 7 2 ++ b2.extractLsb 7 3) ∧
  VariantMeans .convertBgrBgr (fun b0 b1 _ => b0.extractLsb 7 3 ++ b1.extractLsb 7 5)
    (fun _ b1 b2 => b1.extractLsb 4 2 ++ b2.extractLsb 7 3)

/-- The frame of every command: if it gives a next state, the parameters, every byte of IN, the host's moves and the abort
count are unchanged, the request has ended, and STATUS and OUT stand in a response. -/
def Obligations.CommandFrame : Prop :=
  ∀ (i : Instr) (s t : State), exec i s = .next t →
    KeepsRest s t ∧ (∀ a, memRead t a = memRead s a) ∧ Ended t ∧ ∃ p, t.response = some p

/-- The MODEL'S CHOICE, log 11 (DESIGN CHOICE): with no request in progress every command is the model fault noRequest. The
spec says only that a command exists in a request (R24, R60), and says nothing of one run outside a request. -/
def Obligations.CommandWithoutRequestFaults : Prop :=
  ∀ (i : Instr) (s : State), s.phase = .idle ∨ s.latched = none → exec i s = .fault .noRequest

/-- R93. Order equivalence: the two equal-tag commands are the same function of the state, and so are the two mixed ones.
The first holds of the whole outcome, errors included. -/
def Obligations.OrderEquivalence : Prop :=
  ∀ s : State,
    exec .convertRgbRgb s = exec .convertBgrBgr s ∧ exec .convertRgbBgr s = exec .convertBgrRgb s

/-! Serving a request: the answer, the errors and the laws. That a request is served by one step, which these statements
call `step`, is the model's choice (log 8); which STATUS and which OUT that step gives is the spec's. -/

/-- R80 with the priority of R126 and the in-order map of R96. From every state that is serving a request, whatever its
command word, the next step ends the request with exactly the answer of the spec and changes nothing else. That one step
serves a request is the model's choice, log 8 (DESIGN CHOICE). -/
def Obligations.ServedRequestGetsTheAnswer : Prop :=
  ∀ (s : State) (cmd : CmdWord) (outCap : Nat), Serving s cmd outCap → NoReset s →
    EndsWith (step s) s (answer s.config.lenMultiple cmd s.input outCap)

/-- R123 (and R81). MalformedInput if and only if the length fails a check, whatever the tags and the capacity.
That the next step serves the request is the model's choice, log 8. -/
def Obligations.MalformedInputIffLengthFails : Prop :=
  ∀ (s : State) (cmd : CmdWord) (outCap : Nat), Serving s cmd outCap → NoReset s →
    ∃ p, EndsWith (step s) s p ∧
      (p.status = .malformedInput ↔
        s.input.length % 3 ≠ 0 ∨ s.input.length % s.config.lenMultiple.value ≠ 0)

/-- R124. InvalidChannelOrder if and only if the length is valid and CMD[1] = 1 or CMD[3] = 1.
That the next step serves the request is the model's choice, log 8. -/
def Obligations.InvalidChannelOrderIffTagReserved : Prop :=
  ∀ (s : State) (cmd : CmdWord) (outCap : Nat), Serving s cmd outCap → NoReset s →
    ∃ p, EndsWith (step s) s p ∧
      (p.status = .invalidChannelOrder ↔
        LengthOk s ∧ (cmd.getLsbD 1 = true ∨ cmd.getLsbD 3 = true))

/-- R125. AllocationFailure if and only if the length and both tags are valid and `2n > OUT_CAP`.
That the next step serves the request is the model's choice, log 8. -/
def Obligations.AllocationFailureIffOverCapacity : Prop :=
  ∀ (s : State) (cmd : CmdWord) (outCap : Nat), Serving s cmd outCap → NoReset s →
    ∃ p, EndsWith (step s) s p ∧
      (p.status = .allocationFailure ↔
        LengthOk s ∧ cmd.getLsbD 1 = false ∧ cmd.getLsbD 3 = false ∧ 2 * (s.input.length / 3) > outCap)

/-- R122. Raising an error sets STATUS to its code and gives an empty OUT; PHASE becomes IDLE and nothing else changes. -/
def Obligations.RaisingAnErrorEntry : Prop :=
  ∀ (e : RequestError) (s : State),
    EndsWith (.next (raiseError e s)) s ⟨e.status, []⟩ ∧ e.status ≠ .ok

/-- R120. The numbers of the four STATUS codes. -/
def Obligations.StatusCodeNumbers : Prop :=
  Status.code .ok = 0#2 ∧ Status.code .malformedInput = 1#2 ∧ Status.code .invalidChannelOrder = 2#2 ∧
  Status.code .allocationFailure = 3#2 ∧ (∀ a b : Status, a.code = b.code → a = b)

/-- R97. The size law: an OK response has `2 * (len(IN) / 3)` bytes and an error response none.
That the next step serves the request is the model's choice, log 8. -/
def Obligations.SizeLaw : Prop :=
  ∀ (s : State) (cmd : CmdWord) (outCap : Nat), Serving s cmd outCap → NoReset s →
    ∃ p, EndsWith (step s) s p ∧
      (p.status = .ok → p.out.length = 2 * (s.input.length / 3)) ∧ (p.status ≠ .ok → p.out.length = 0)

/-- R44. Every output record is big-endian. For each pixel `i` of an OK response, with `P` its packed sample,
`OUT[2i] = P[15:8]` and `OUT[2i+1] = P[7:0]`.
That the next step serves the request is the model's choice, log 8. -/
def Obligations.OutputIsBigEndian : Prop :=
  ∀ (s : State) (src dst : ChannelOrder) (outCap i : Nat) (b0 b1 b2 : Byte),
    Serving s (cmdOfCodes src.code dst.code) outCap → NoReset s → LengthOk s →
    2 * (s.input.length / 3) ≤ outCap →
    s.input[3 * i]? = some b0 → s.input[3 * i + 1]? = some b1 → s.input[3 * i + 2]? = some b2 →
    ∃ bytes, EndsWith (step s) s ⟨.ok, bytes⟩ ∧
      bytes[2 * i]? = some ((pack (quantize (extractChannels b0 b1 b2 src)) dst).extractLsb 15 8) ∧
      bytes[2 * i + 1]? = some ((pack (quantize (extractChannels b0 b1 b2 src)) dst).extractLsb 7 0)

/-- R94. Two requests that differ only in input bits the quantizer drops get the same response.
That the next step serves the request is the model's choice, log 8. -/
def Obligations.DroppedBitsDoNotReachTheOutput : Prop :=
  ∀ (s s' : State) (cmd : CmdWord) (outCap : Nat),
    Serving s cmd outCap → Serving s' cmd outCap → NoReset s → NoReset s' →
    s.config.lenMultiple = s'.config.lenMultiple → SameKeptBits s.input s'.input →
    ∃ p, EndsWith (step s) s p ∧ EndsWith (step s') s' p

/-- R128. The error is decided from the length, the command word and the capacity alone: two requests that differ only in
the values of their input bytes get the same STATUS.
That the next step serves the request is the model's choice, log 8. -/
def Obligations.StatusIgnoresPixelValues : Prop :=
  ∀ (s s' : State) (cmd : CmdWord) (outCap : Nat),
    Serving s cmd outCap → Serving s' cmd outCap → NoReset s → NoReset s' →
    s.config.lenMultiple = s'.config.lenMultiple → s.input.length = s'.input.length →
    ∃ p p', EndsWith (step s) s p ∧ EndsWith (step s') s' p' ∧ p.status = p'.status

/-- R98 (and R30). Two requests with the same CMD, IN and OUT_CAP, under the same LEN_MULTIPLE, get the same response,
whatever else differs between the two machines: earlier responses, OUT storage, lanes, MAX_IN_LEN.
That the next step serves the request is the model's choice, log 8. -/
def Obligations.SameRequestSameResponse : Prop :=
  ∀ (s s' : State) (cmd : CmdWord) (outCap : Nat),
    Serving s cmd outCap → Serving s' cmd outCap → NoReset s → NoReset s' →
    s.config.lenMultiple = s'.config.lenMultiple → s.input = s'.input →
    ∃ p, EndsWith (step s) s p ∧ EndsWith (step s') s' p

/-- R96, R133. The number of lanes cannot be observed: a step with another number of lanes gives the same next state, up to
that number. How the model splits pixels among lanes is log 6. -/
def Obligations.LanesCannotBeObserved : Prop :=
  ∀ (s t : State) (k : Nat), step s = .next t → step (s.withLanes k) = .next (t.withLanes k)

/-- R107. The empty request: with valid tags OK and an empty OUT at every capacity and both settings of LEN_MULTIPLE, with
a reserved tag InvalidChannelOrder.
That the next step serves the request is the model's choice, log 8. -/
def Obligations.EmptyRequestAnswer : Prop :=
  ∀ (s : State) (cmd : CmdWord) (outCap : Nat), Serving s cmd outCap → NoReset s → s.input = [] →
    (cmdValid cmd = true → EndsWith (step s) s ⟨.ok, []⟩) ∧
    (cmdValid cmd = false → EndsWith (step s) s ⟨.invalidChannelOrder, []⟩)

/-- R105. A request with the word of `CONVERT_CS` and a valid tag gets the response of `CONVERT rgb, rgb`; with a reserved
tag it fails with InvalidChannelOrder unless MalformedInput comes first.
That the next step serves the request is the model's choice, log 8. -/
def Obligations.ConvertCsMeaning : Prop :=
  ∀ (s : State) (cs : TagText) (outCap : Nat), Serving s (assembleCs cs) outCap → NoReset s →
    ((cs.code = 0b00#2 ∨ cs.code = 0b01#2) → step s = exec .convertRgbRgb s) ∧
    (cs.code = 0b10#2 ∨ cs.code = 0b11#2 →
      (LengthOk s → EndsWith (step s) s ⟨.invalidChannelOrder, []⟩) ∧
      (¬ LengthOk s → EndsWith (step s) s ⟨.malformedInput, []⟩))

/-! Phases, acceptance, reset and runs. -/

/-- A step runs the decoded command. The spec says what a command word decodes to and that a reserved one fails (R60, R64,
R65). The rest is the MODEL'S CHOICE: that the very next step from a serving state is `exec` of the command the latched word
decodes to is log 8 (DESIGN CHOICE), and that a reserved word is served by `execReserved` is log 10. The step adds nothing
around `exec`. -/
def Obligations.StepRunsTheDecodedCommand : Prop :=
  ∀ (s : State) (cmd : CmdWord) (outCap : Nat), Serving s cmd outCap → NoReset s →
    (∀ i, decode cmd = .instr i → step s = exec i s) ∧
    ((∀ i, decode cmd ≠ .instr i) → step s = execReserved cmd s)

/-- The MODEL'S CHOICE, log 4 (DESIGN CHOICE): after `withFetchWord`, which stands for the acceptance of a request, the very
next step runs exactly the command whose word was put in. That it is the very next step is log 8. -/
def Obligations.FetchedWordRunsNext : Prop :=
  ∀ (s : State) (i : Instr),
    step (s.withFetchWord 8 (encode i).toNat) = exec i (s.withFetchWord 8 (encode i).toNat) ∧
    Serving (s.withFetchWord 8 (encode i).toNat) (encode i) (fetchCapacity s) ∧
    (s.withFetchWord 8 (encode i).toNat).input = s.input

/-- R33, R140 and R8: the state after reset. The empty IN is the model's choice (log 3), and so are the two fields of the
model itself (logs 4 and 5). -/
def Obligations.StateAfterReset : Prop :=
  (∀ c : Config, (State.resetWith c).phase = .idle ∧ (State.resetWith c).latched = none ∧
    (State.resetWith c).response = none ∧ (State.resetWith c).out = Memory.empty ∧
    (State.resetWith c).config = c) ∧
  State.reset = State.resetWith ⟨.three, none, 0⟩ ∧ State.reset.config.lanes = 1

/-- R141. Reset while PHASE is BUSY aborts the request: no response, PHASE is IDLE, IN is unchanged. Its OUT storage holds
any bytes: of them the statement says only that none lies beyond the storage the request could write.
That the reset is the host's next move in a list is log 4, and which indices the storage has is log 5. -/
def Obligations.ResetAbortsTheRequest : Prop :=
  ∀ (s : State) (cmd : CmdWord) (outCap : Nat) (rest : List HostMove),
    Serving s cmd outCap → s.host = .reset :: rest →
    ∃ t, step s = .next t ∧ t.phase = .idle ∧ t.latched = none ∧ t.response = none ∧ t.input = s.input ∧
      t.config = s.config ∧ t.host = rest ∧
      ∀ a, 2 * (s.input.length / 3) ≤ a ∨ outCap ≤ a → t.out.read a = none

/-- R140. Reset in IDLE leaves PHASE IDLE. No response is pending after it (R33; that the model clears the response there
is log 2), and nothing else of a state without a latched request changes.
That the reset is the host's next move in a list is log 4. -/
def Obligations.ResetInIdle : Prop :=
  ∀ (s : State) (rest : List HostMove), s.phase = .idle → s.latched = none → s.host = .reset :: rest →
    step s = .next { s with host := rest, response := none }

/-- Accepting a request in IDLE latches CMD and OUT_CAP, takes IN and sets PHASE to BUSY; and the block accepts only in IDLE
(R143). Three clauses are the MODEL'S CHOICES: that the host's moves are a list of which this is the first (log 4), that an
earlier response is cleared at acceptance (log 2), and that a step from BUSY always leads to IDLE, because one step serves
a request (log 8). -/
def Obligations.AcceptanceLatchesTheRequest : Prop :=
  (∀ (s : State) (r : Request) (rest : List HostMove),
    s.phase = .idle → s.host = .request r :: rest → r.presentable s.config = true →
    ∃ t, step s = .next t ∧ Serving t r.cmd r.outCap ∧ t.input = r.input ∧ t.out = Memory.empty ∧
      t.response = none ∧ t.host = rest ∧ t.config = s.config) ∧
  ∀ s t : State, s.phase = .busy → step s = .next t → t.phase = .idle

/-- What moves PHASE (R34): it becomes BUSY only by accepting a request the host presents, and a step from BUSY makes it
IDLE, by giving the response or by reset. That every step from BUSY does so is the model's choice, log 8, and that the
host's moves are a list is log 4. -/
def Obligations.PhaseChangesOnlyByAcceptResponseReset : Prop :=
  ∀ s t : State, step s = .next t →
    (t.phase = .busy → s.phase = .idle ∧ ∃ r rest, s.host = .request r :: rest ∧ t.latched = some ⟨r.cmd, r.outCap⟩) ∧
    (s.phase = .busy → t.phase = .idle ∧ ((∃ p, t.response = some p) ∨ ∃ rest, s.host = .reset :: rest))

/-- A request presented while PHASE is BUSY is not admitted (R144): the step serves the request in progress. That the second
one is still presented after it is the MODEL'S CHOICE, log 4 (DESIGN CHOICE): it stays at the head of the host's moves. That
the one step serves the first is log 8. -/
def Obligations.SecondRequestIsNotAdmitted : Prop :=
  ∀ (s : State) (cmd : CmdWord) (outCap : Nat) (r : Request) (rest : List HostMove),
    Serving s cmd outCap → s.host = .request r :: rest →
    ∃ t, step s = .next t ∧ t.phase = .idle ∧ t.latched = none ∧ t.input = s.input ∧ t.host = .request r :: rest ∧
      t.response = some (answer s.config.lenMultiple cmd s.input outCap)

/-- A request longer than MAX_IN_LEN cannot be presented (R8, R27, D5): the model refuses it by name (log 7), and accepts
one of exactly that length.
That the request is the host's next move in a list is log 4. -/
def Obligations.OversizedRequestIsRefused : Prop :=
  ∀ (s : State) (r : Request) (rest : List HostMove) (m : Nat),
    s.phase = .idle → s.host = .request r :: rest → s.config.maxInLen = some m →
    (m < r.input.length → step s = .refused (.inputTooLong r.input.length)) ∧
    (r.input.length ≤ m → ∃ t, step s = .next t ∧ Serving t r.cmd r.outCap)

/-- After any request, OK or error (R99), or aborted by reset (R141), IN holds exactly the bytes it held at acceptance. That
the step after acceptance ends the request is the MODEL'S CHOICE, log 8 (DESIGN CHOICE), and that IN still stands in State
then is log 3. -/
def Obligations.InputIsPreserved : Prop :=
  ∀ (s : State) (r : Request) (rest : List HostMove),
    s.phase = .idle → s.host = .request r :: rest → r.presentable s.config = true →
    ∃ t u, step s = .next t ∧ t.input = r.input ∧ step t = .next u ∧ u.phase = .idle ∧ u.input = r.input

/-- Every accepted request gets exactly one response (R134), unless a reset comes first. Three clauses are the MODEL'S
CHOICES: that an earlier response is gone once the request has been accepted, log 2 (DESIGN CHOICE); that the next step gives
the response, log 8 (DESIGN CHOICE); and that the host's moves are a list, log 4. -/
def Obligations.AcceptedRequestGetsOneResponse : Prop :=
  ∀ (s : State) (r : Request) (rest : List HostMove),
    s.phase = .idle → s.host = .request r :: rest → r.presentable s.config = true →
    (∀ rest', rest ≠ .reset :: rest') →
    ∃ t u, step s = .next t ∧ t.phase = .busy ∧ t.response = none ∧ step t = .next u ∧ u.phase = .idle ∧
      u.response = some (answer s.config.lenMultiple r.cmd r.input r.outCap)

/-- A host that presents any sequence of requests back to back: after two steps for each, the machine is IDLE with the
moves that follow still to come, and the response it holds is the answer to the last request alone (R30, R129, R148). No
error and no output of an earlier request reaches it. Taken for every sequence, it says the same of each request in turn.
The two steps for each request are the MODEL'S CHOICE, log 8, and so is the list of moves they come from, log 4. -/
def Obligations.RequestsAreServedIndependently : Prop :=
  ∀ (rs : List Request) (r : Request) (rest : List HostMove) (s : State),
    s.phase = .idle → s.host = (rs ++ [r]).map HostMove.request ++ rest → (∀ rest', rest ≠ .reset :: rest') →
    (∀ q ∈ rs ++ [r], q.presentable s.config = true) →
    ∃ t, runSteps (2 * (rs.length + 1)) s = .next t ∧ t.phase = .idle ∧ t.latched = none ∧ t.host = rest ∧
      t.config = s.config ∧ t.input = r.input ∧
      t.response = some (answer s.config.lenMultiple r.cmd r.input r.outCap)

/-- The invariant holds after reset, at every parameter setting. -/
def Obligations.ResetMeetsTheInvariant : Prop := ∀ c : Config, (State.resetWith c).Inv

/-- Every step keeps the invariant (R23, R34, R48, R97): from every state that meets it, not only from reset. Three of its
clauses speak in the model's own terms: the canonical form of OUT (log 9), no earlier response while BUSY (log 2), and the IN
that a response is measured against (log 3). -/
def Obligations.EveryStepKeepsTheInvariant : Prop :=
  ∀ s t : State, s.Inv → step s = .next t → t.Inv

/-- From every state that meets the invariant no step faults, so no access leaves its space (R103, R121). The faults beside
that of R41 are the MODEL'S CHOICES: a write outside OUT and an unwritten byte handed over (log 9), and a command with no
request (log 11). A step is refused only for a request the host could not present; that it is refused is log 7 (DEDUCED). -/
def Obligations.NoStepFaults : Prop :=
  ∀ s : State, s.Inv →
    (∃ t, step s = .next t) ∨
    ∃ r rest, s.phase = .idle ∧ s.host = .request r :: rest ∧ r.presentable s.config = false ∧
      step s = .refused (.inputTooLong r.input.length)
end

