-- ==== Sys2Proof/Laws/State.lean ====
section
/-! SUPPORT. One lemma for each field of State and each operation that answers a state. -/

namespace Sys2Proof.Machine

section Respond
variable (st : Status) (bytes : List Byte) (s : State)
@[simp] theorem respond_config : (respond st bytes s).config = s.config := rfl
@[simp] theorem respond_phase : (respond st bytes s).phase = .idle := rfl
@[simp] theorem respond_latched : (respond st bytes s).latched = none := rfl
@[simp] theorem respond_input : (respond st bytes s).input = s.input := rfl
@[simp] theorem respond_out : (respond st bytes s).out = Memory.empty := rfl
@[simp] theorem respond_response : (respond st bytes s).response = some ⟨st, bytes⟩ := rfl
@[simp] theorem respond_host : (respond st bytes s).host = s.host := rfl
@[simp] theorem respond_draw : (respond st bytes s).draw = s.draw := rfl
end Respond

section Accept
variable (r : Request) (s : State)
@[simp] theorem accept_config : (accept r s).config = s.config := rfl
@[simp] theorem accept_phase : (accept r s).phase = .busy := rfl
@[simp] theorem accept_latched : (accept r s).latched = some ⟨r.cmd, r.outCap⟩ := rfl
@[simp] theorem accept_input : (accept r s).input = r.input := rfl
@[simp] theorem accept_out : (accept r s).out = Memory.empty := rfl
@[simp] theorem accept_response : (accept r s).response = none := rfl
@[simp] theorem accept_host : (accept r s).host = s.host := rfl
@[simp] theorem accept_draw : (accept r s).draw = s.draw := rfl
end Accept

section Reset
variable (s : State)
@[simp] theorem resetBlock_config : (resetBlock s).config = s.config := by unfold resetBlock; split <;> rfl
@[simp] theorem resetBlock_phase : (resetBlock s).phase = .idle := by unfold resetBlock; split <;> simp_all
@[simp] theorem resetBlock_latched : (resetBlock s).latched = none := by unfold resetBlock; split <;> rfl
@[simp] theorem resetBlock_input : (resetBlock s).input = s.input := by unfold resetBlock; split <;> rfl
@[simp] theorem resetBlock_response : (resetBlock s).response = none := by unfold resetBlock; split <;> rfl
@[simp] theorem resetBlock_host : (resetBlock s).host = s.host := by unfold resetBlock; split <;> rfl
theorem resetBlock_out_idle (h : s.phase = .idle) : (resetBlock s).out = s.out := by simp [resetBlock, h]
theorem resetBlock_out_busy (h : s.phase = .busy) : (resetBlock s).out = abandonedOut s := by simp [resetBlock, h]
theorem resetBlock_draw_idle (h : s.phase = .idle) : (resetBlock s).draw = s.draw := by simp [resetBlock, h]
theorem resetBlock_draw_busy (h : s.phase = .busy) : (resetBlock s).draw = s.draw + 1 := by simp [resetBlock, h]
end Reset

/-- Raising an error is a response with its code and no output. -/
theorem raiseError_eq (e : RequestError) (s : State) : raiseError e s = respond e.status [] s := rfl

/-- A response ends the request and leaves the rest alone. -/
theorem respond_endsWith (st : Status) (bytes : List Byte) (s : State) :
    EndsWith (.next (respond st bytes s)) s ⟨st, bytes⟩ :=
  ⟨_, rfl, rfl, ⟨rfl, rfl, rfl⟩, rfl, rfl, rfl, rfl⟩

end Sys2Proof.Machine
end

