-- ==== Sys2Proof/Laws/Bits.lean ====
section
/-! SUPPORT. The bits of the concatenations the datapath builds, at the widths the spec states. -/

namespace Sys2Proof

/-- The bits of a 5/6/5 sample (40_convert.md R85, R86). -/
theorem sample_getLsbD (x : BitVec 5) (y : BitVec 6) (z : BitVec 5) (i : Nat) :
    (x ++ y ++ z : Sample).getLsbD i =
      if i < 5 then z.getLsbD i else if i < 11 then y.getLsbD (i - 5) else x.getLsbD (i - 11) := by
  have hlow : (x ++ y ++ z : Sample).getLsbD i =
      if i < 5 then z.getLsbD i else (x ++ y : BitVec 11).getLsbD (i - 5) := BitVec.getLsbD_append
  have hhigh : (x ++ y : BitVec 11).getLsbD (i - 5) =
      if i - 5 < 6 then y.getLsbD (i - 5) else x.getLsbD (i - 5 - 6) := BitVec.getLsbD_append
  have e : i - 5 - 6 = i - 11 := by omega
  rw [hlow, hhigh, e]
  by_cases h5 : i < 5
  · rw [if_pos h5, if_pos h5]
  · rw [if_neg h5, if_neg h5]
    by_cases h11 : i < 11
    · rw [if_pos h11, if_pos (by omega)]
    · rw [if_neg h11, if_neg (by omega)]

/-- The bits of a byte made of 5 bits above 3 (R89 to R92, the first output byte). -/
theorem byte_five_three_getLsbD (x : BitVec 5) (y : BitVec 3) (i : Nat) :
    (x ++ y : Byte).getLsbD i = if i < 3 then y.getLsbD i else x.getLsbD (i - 3) :=
  BitVec.getLsbD_append

/-- The bits of a byte made of 3 bits above 5 (R89 to R92, the second output byte). -/
theorem byte_three_five_getLsbD (x : BitVec 3) (y : BitVec 5) (i : Nat) :
    (x ++ y : Byte).getLsbD i = if i < 5 then y.getLsbD i else x.getLsbD (i - 5) :=
  BitVec.getLsbD_append

/-- The bits of a 16-bit word made of two bytes (20_memory.md R45). -/
theorem two_bytes_getLsbD (x y : Byte) (i : Nat) :
    (x ++ y : Sample).getLsbD i = if i < 8 then y.getLsbD i else x.getLsbD (i - 8) :=
  BitVec.getLsbD_append

end Sys2Proof
end

