-- ==== Sys2Proof/Laws/Memory.lean ====
section
/-! SUPPORT. The laws of the OUT storage: read after write, and the canonical form. -/

namespace Sys2Proof.Machine

@[simp] theorem Memory.read_empty (a : Nat) : Memory.empty.read a = none := rfl

theorem Memory.empty_wf : Memory.empty.wf := List.Pairwise.nil

theorem State.reset_out_wf : State.reset.out.wf := Memory.empty_wf

theorem lookup_insert (a c : Nat) (v : Byte) (l : List Host.Cell) :
    lookupCell c (insertCell a v l) = if c = a then some v else lookupCell c l := by
  induction l with
  | nil => simp [insertCell, lookupCell]
  | cons x rest ih =>
    obtain ⟨b, w⟩ := x
    unfold insertCell
    split
    · simp [lookupCell]
    · split
      · subst_vars; simp only [lookupCell]; split <;> rfl
      · simp only [lookupCell, ih]
        split <;> split <;> simp_all

/-- Reading after a write: the written byte at its index, and every other index as before. -/
@[simp] theorem Memory.read_write (m : Memory) (a c : Nat) (v : Byte) :
    (m.write a v).read c = if c = a then some v else m.read c := lookup_insert a c v m.cells

theorem mem_insertCell {a : Nat} {v : Byte} {l : List Host.Cell} {x : Host.Cell}
    (h : x ∈ insertCell a v l) : x = (a, v) ∨ x ∈ l := by
  induction l with
  | nil => simpa [insertCell] using h
  | cons y rest ih =>
    obtain ⟨b, w⟩ := y
    unfold insertCell at h
    split at h
    · simpa using h
    · split at h
      · simp only [List.mem_cons] at h ⊢; tauto
      · simp only [List.mem_cons] at h ⊢
        rcases h with h | h
        · exact .inr (.inl h)
        · rcases ih h with h | h
          · exact .inl h
          · exact .inr (.inr h)

/-- A write keeps the canonical form. -/
theorem Memory.write_wf {m : Memory} (h : m.wf) (a : Nat) (v : Byte) : (m.write a v).wf := by
  obtain ⟨l⟩ := m
  change l.Pairwise _ at h
  change (insertCell a v l).Pairwise _
  induction l with
  | nil => exact List.pairwise_singleton _ _
  | cons y rest ih =>
    obtain ⟨b, w⟩ := y
    have hrest := List.pairwise_cons.1 h
    unfold insertCell
    split
    next hab =>
      refine List.pairwise_cons.2 ⟨?_, h⟩
      intro x hx
      rcases List.mem_cons.1 hx with rfl | hx
      · exact hab
      · exact Nat.lt_trans hab (hrest.1 x hx)
    next hab =>
      split
      next hb => subst hb; exact List.pairwise_cons.2 hrest
      next hb =>
        refine List.pairwise_cons.2 ⟨?_, ih hrest.2⟩
        intro x hx
        rcases mem_insertCell hx with rfl | hx
        · change b < a; omega
        · exact hrest.1 x hx

/-- What an abort leaves is in canonical form, whatever the free bytes are. -/
theorem abandonedOut_wf (s : State) : (abandonedOut s).wf := by
  refine List.Pairwise.filterMap _ ?_ List.pairwise_lt_range
  intro a b hab x hx y hy
  simp only [Option.map_eq_some_iff] at hx hy
  obtain ⟨_, -, rfl⟩ := hx
  obtain ⟨_, -, rfl⟩ := hy
  exact hab

/-- Reset keeps the canonical form. -/
theorem resetBlock_out_wf {s : State} (h : s.out.wf) : (resetBlock s).out.wf := by
  by_cases hp : s.phase = .busy
  · rw [resetBlock_out_busy s hp]
    exact abandonedOut_wf s
  · have hp : s.phase = .idle := by
      cases hs : s.phase
      · rfl
      · exact absurd hs hp
    rw [resetBlock_out_idle s hp]
    exact h

end Sys2Proof.Machine
end

