-- ==== Sys2Proof/Laws/Datapath.lean ====
section
/-! SUPPORT. What the accesses, the pixel loop and the lane order can do. -/

namespace Sys2Proof.Machine

theorem memRead_lt {s : State} {a : Nat} (h : a < s.input.length) : memRead s a = .ok s.input[a] := by
  simp [memRead, h]

theorem memRead_ge {s : State} {a : Nat} (h : s.input.length ≤ a) :
    memRead s a = .error (.inReadOutOfRange a) := by
  simp [memRead, h]

theorem memWrite_lt {s : State} {a : Nat} (v : Byte) (h : a < 2 * pixelCount s.input.length) :
    memWrite a v s = .ok { s with out := s.out.write a v } := by
  simp [memWrite, h]

/-- Byte `k` of the record of pixel `i`; 0 outside IN, where no access of the block goes. -/
def recordByte (input : List Byte) (i k : Nat) : Byte := input.getD (3 * i + k) 0#8

/-- The two output bytes of pixel `i`. -/
def pixelOf (src dst : ChannelOrder) (input : List Byte) (i : Nat) : Byte × Byte :=
  pixel (recordByte input i 0) (recordByte input i 1) (recordByte input i 2) src dst

/-- Byte `a` of the output: the first or second byte of pixel `a / 2`. -/
def outByte (src dst : ChannelOrder) (input : List Byte) (a : Nat) : Byte :=
  if a % 2 = 0 then (pixelOf src dst input (a / 2)).1 else (pixelOf src dst input (a / 2)).2

/-- The OUT storage with the record of pixel `i` written. -/
def writePixel (i : Nat) (o : Byte × Byte) (m : Memory) : Memory := (m.write (2 * i) o.1).write (2 * i + 1) o.2

/-- Writing a record: the two bytes of pixel `i` stand there, and every other index is as before. -/
theorem read_writePixel (i a : Nat) (o : Byte × Byte) (m : Memory) :
    (writePixel i o m).read a = if a / 2 = i then some (if a % 2 = 0 then o.1 else o.2) else m.read a := by
  simp only [writePixel, Memory.read_write]
  by_cases h1 : a = 2 * i + 1
  · rw [if_pos h1, if_pos (by omega), if_neg (by omega)]
  · by_cases h0 : a = 2 * i
    · rw [if_neg h1, if_pos h0, if_pos (by omega), if_pos (by omega)]
    · rw [if_neg h1, if_neg h0, if_neg (by omega)]

theorem readRecord_lt {s : State} {i : Nat} (h : i < pixelCount s.input.length) :
    readRecord s i =
      .ok (recordByte s.input i 0, recordByte s.input i 1, recordByte s.input i 2) := by
  unfold pixelCount at h
  have h0 : inIndex i 0 < s.input.length := by unfold inIndex; omega
  have h1 : inIndex i 1 < s.input.length := by unfold inIndex; omega
  have h2 : inIndex i 2 < s.input.length := by unfold inIndex; omega
  have key : ∀ k, ∀ hk : inIndex i k < s.input.length, s.input[inIndex i k] = recordByte s.input i k := by
    intro k hk
    unfold inIndex at hk ⊢
    unfold recordByte
    rw [List.getD_eq_getElem?_getD, List.getElem?_eq_getElem hk, Option.getD_some]
  simp only [readRecord, memRead_lt h0, memRead_lt h1, memRead_lt h2, key]

/-- A pixel inside the input is processed without a fault, and only its own record of OUT changes. -/
theorem pixelStep_lt (src dst : ChannelOrder) {s : State} {i : Nat} (h : i < pixelCount s.input.length) :
    pixelStep src dst i s =
      .ok { s with out := writePixel i (pixelOf src dst s.input i) s.out } := by
  have h0 : outIndex i 0 < 2 * pixelCount s.input.length := by unfold outIndex; omega
  have h1 : outIndex i 1 < 2 * pixelCount s.input.length := by unfold outIndex; omega
  simp only [pixelStep, readRecord_lt h, writeRecord, memWrite_lt _ h0]
  rw [memWrite_lt _ (by simpa using h1)]
  rfl

/-- The pixel loop over any list of pixels inside the input: it does not fault, it changes nothing but OUT, it keeps the
canonical form, and it writes exactly the records of the listed pixels. -/
theorem pixelLoop_spec (src dst : ChannelOrder) (order : List Nat) (s : State)
    (h : ∀ i ∈ order, i < pixelCount s.input.length) :
    ∃ m, pixelLoop src dst order s = .ok { s with out := m } ∧ (s.out.wf → m.wf) ∧
      ∀ a, m.read a = if a / 2 ∈ order then some (outByte src dst s.input a) else s.out.read a := by
  induction order generalizing s with
  | nil => exact ⟨s.out, rfl, id, fun a => by simp⟩
  | cons i rest ih =>
    have hi := h i (by simp)
    obtain ⟨m, hm, hwf, hread⟩ := ih
      { s with out := writePixel i (pixelOf src dst s.input i) s.out } (fun j hj => h j (by simp [hj]))
    refine ⟨m, ?_, fun hs => hwf (Memory.write_wf (Memory.write_wf hs _ _) _ _), ?_⟩
    · simp only [pixelLoop, pixelStep_lt src dst hi, hm]
    · intro a
      rw [hread a]
      by_cases hr : a / 2 ∈ rest
      · simp [hr]
      · rw [if_neg hr, read_writePixel]
        by_cases ha : a / 2 = i
        · subst ha
          rw [if_pos rfl, if_pos List.mem_cons_self, outByte]
        · rw [if_neg ha, if_neg (by simp [hr, ha])]

theorem collectOut_ok {m : Memory} {f : Nat → Byte} {l : List Nat} (h : ∀ a ∈ l, m.read a = some (f a)) :
    collectOut m l = .ok (l.map f) := by
  induction l with
  | nil => rfl
  | cons a rest ih =>
    simp only [collectOut, h a (by simp), ih fun b hb => h b (by simp [hb]), List.map_cons]

theorem laneOrder_mem {lanes n i : Nat} (hl : 0 < lanes) : i ∈ laneOrder lanes n ↔ i < n := by
  simp only [laneOrder, List.mem_flatMap, List.mem_range, List.mem_filter, List.mem_map, decide_eq_true_eq]
  constructor
  · rintro ⟨_, _, _, h⟩
    exact h
  · intro hi
    have hk : 0 < min lanes n := by omega
    generalize min lanes n = k at hk ⊢
    have hs : n ≤ k * ((n + k - 1) / k) := by
      have h1 := Nat.div_add_mod (n + k - 1) k
      have h2 := Nat.mod_lt (n + k - 1) hk
      omega
    have hpos : 0 < (n + k - 1) / k := Nat.div_pos (by omega) hk
    generalize (n + k - 1) / k = c at hs hpos ⊢
    refine ⟨i % c, Nat.mod_lt _ hpos, ⟨i / c, ?_, ?_⟩, hi⟩
    · exact Nat.div_lt_of_lt_mul (by rw [Nat.mul_comm]; omega)
    · have := Nat.div_add_mod i c
      rw [Nat.mul_comm] at this
      exact this

theorem laneOrder_nodup (lanes n : Nat) : (laneOrder lanes n).Nodup := by
  unfold laneOrder
  simp only
  generalize (n + min lanes n - 1) / min lanes n = c
  generalize min lanes n = k
  refine List.nodup_flatMap.2 ⟨fun j hj => ?_, ?_⟩
  · have hc : 0 < c := by have := List.mem_range.1 hj; omega
    refine List.Nodup.filter _ (List.Nodup.map ?_ List.nodup_range)
    intro a b hab
    exact Nat.eq_of_mul_eq_mul_right hc (Nat.add_right_cancel hab)
  · refine List.Pairwise.imp_of_mem ?_ List.pairwise_lt_range
    intro a b ha hb hab x hx hy
    have ha := List.mem_range.1 ha
    have hb := List.mem_range.1 hb
    obtain ⟨l1, -, h1⟩ := List.mem_map.1 (List.mem_of_mem_filter hx)
    obtain ⟨l2, -, h2⟩ := List.mem_map.1 (List.mem_of_mem_filter hy)
    have e1 : x % c = a := by rw [← h1, Nat.mul_comm, Nat.mul_add_mod, Nat.mod_eq_of_lt ha]
    have e2 : x % c = b := by rw [← h2, Nat.mul_comm, Nat.mul_add_mod, Nat.mod_eq_of_lt hb]
    omega

/-- Whatever the number of lanes, each pixel is visited exactly once. -/
theorem laneOrder_perm {lanes : Nat} (hl : 0 < lanes) (n : Nat) : (laneOrder lanes n).Perm (List.range n) :=
  (List.perm_ext_iff_of_nodup (laneOrder_nodup lanes n) List.nodup_range).2 fun i => by
    simp [laneOrder_mem hl]

theorem outByte_drop (src dst : ChannelOrder) (b0 b1 b2 : Byte) (rest : List Byte) (a : Nat) :
    outByte src dst (b0 :: b1 :: b2 :: rest) (a + 2) = outByte src dst rest a := by
  have hr : ∀ k, recordByte (b0 :: b1 :: b2 :: rest) ((a + 2) / 2) k = recordByte rest (a / 2) k := by
    intro k
    have : 3 * ((a + 2) / 2) + k = (3 * (a / 2) + k) + 3 := by omega
    simp only [recordByte, List.getD_eq_getElem?_getD, this, List.getElem?_cons_succ]
  simp only [outByte, pixelOf, hr]
  have : (a + 2) % 2 = a % 2 := by omega
  rw [this]

/-- The in-order map, byte by byte. -/
theorem pixelMap_eq (src dst : ChannelOrder) (input : List Byte) :
    pixelMap src dst input = (List.range (2 * pixelCount input.length)).map (outByte src dst input) := by
  match input with
  | [] => rfl
  | [_] => simp [pixelMap, pixelCount]
  | [_, _] => simp [pixelMap, pixelCount]
  | b0 :: b1 :: b2 :: rest =>
    have hn : 2 * pixelCount (b0 :: b1 :: b2 :: rest).length = 2 * pixelCount rest.length + 2 := by
      simp only [pixelCount, List.length_cons]; omega
    rw [pixelMap, pixelMap_eq src dst rest, hn, List.range_succ_eq_map, List.range_succ_eq_map]
    simp only [List.map_cons, List.map_map]
    congr 1
    congr 1
    refine List.map_congr_left fun a _ => ?_
    exact (outByte_drop src dst b0 b1 b2 rest a).symm

@[simp] theorem pixelMap_length (src dst : ChannelOrder) (input : List Byte) :
    (pixelMap src dst input).length = 2 * (input.length / 3) := by
  simp [pixelMap_eq, pixelCount]

end Sys2Proof.Machine
end

