-- ==== Sys2Proof/Laws/Convert.lean ====
section
/-! SUPPORT. What serving a request does, said once: it always gives a response, and which one. -/

namespace Sys2Proof.Machine

/-- The pixels: OK with the in-order map, whatever the number of lanes, and the rest of the state as a response leaves
it. -/
theorem convertPixels_eq (src dst : ChannelOrder) (s : State) :
    convertPixels src dst s = .next (respond .ok (pixelMap src dst s.input) s) := by
  have hl : 0 < s.config.lanes := Nat.succ_pos _
  obtain ⟨m, hm, -, hread⟩ := pixelLoop_spec src dst (laneOrder s.config.lanes (pixelCount s.input.length))
    { s with out := Memory.empty } (fun i hi => (laneOrder_mem hl).1 hi)
  have hc : collectOut m (List.range (2 * pixelCount s.input.length)) = .ok (pixelMap src dst s.input) := by
    rw [pixelMap_eq]
    refine collectOut_ok fun a ha => ?_
    have ha := List.mem_range.1 ha
    rw [hread a, if_pos ((laneOrder_mem hl).2 (by omega))]
  simp only [convertPixels, hm, hc]
  rfl

/-- The response of R80 to raw tag fields. -/
def serveResponse (c : Config) (src dst : TagCode) (input : List Byte) (outCap : Nat) : Response :=
  if lengthFails c input.length then ⟨.malformedInput, []⟩
  else
    match orderOfCode src, orderOfCode dst with
    | some so, some d =>
      if capacityFails input.length outCap then ⟨.allocationFailure, []⟩
      else ⟨.ok, pixelMap so d input⟩
    | none, _ => ⟨.invalidChannelOrder, []⟩
    | some _, none => ⟨.invalidChannelOrder, []⟩

/-- Serving a request always answers a next state, and that state is the response. -/
theorem serve_eq (src dst : TagCode) {s : State} {cmd : CmdWord} {outCap : Nat} (h : Serving s cmd outCap) :
    serve src dst s =
      .next (respond (serveResponse s.config src dst s.input outCap).status
        (serveResponse s.config src dst s.input outCap).out s) := by
  obtain ⟨hp, hl⟩ := h
  unfold serve serveResponse
  rw [hp, hl]
  simp only
  split
  · rfl
  · cases orderOfCode src with
    | none => rfl
    | some so =>
      cases orderOfCode dst with
      | none => rfl
      | some d =>
        simp only
        split
        · rfl
        · exact convertPixels_eq so d s

/-- Without a request there is nothing to serve. -/
theorem serve_noRequest (src dst : TagCode) {s : State} (h : s.phase = .idle ∨ s.latched = none) :
    serve src dst s = .fault .noRequest := by
  unfold serve
  cases hp : s.phase <;> cases hl : s.latched <;> simp_all

/-- If serving answers a next state, a request was in progress. -/
theorem serving_of_serve_next {src dst : TagCode} {s t : State} (h : serve src dst s = .next t) :
    ∃ cmd outCap, Serving s cmd outCap := by
  cases hp : s.phase with
  | idle => rw [serve_noRequest src dst (.inl hp)] at h; cases h
  | busy =>
    cases hl : s.latched with
    | none => rw [serve_noRequest src dst (.inr hl)] at h; cases h
    | some l => exact ⟨l.cmd, l.outCap, hp, hl⟩

/-- A command serves the request with its own tags. -/
theorem exec_eq_serve (i : Instr) (s : State) : exec i s = serve i.source.code i.target.code s := by
  cases i <;> rfl

theorem lengthFails_eq_false {s : State} : lengthFails s.config s.input.length = false ↔ LengthOk s := by
  simp [lengthFails, LengthOk]

theorem lengthFails_eq_true {s : State} : lengthFails s.config s.input.length = true ↔ ¬ LengthOk s := by
  rw [← lengthFails_eq_false]; simp

theorem capacityFails_eq_true {len outCap : Nat} :
    capacityFails len outCap = true ↔ outCap < 2 * (len / 3) := by
  rw [capacityFails, decide_eq_true_iff, pixelCount]

end Sys2Proof.Machine
end

