-- ==== Sys2Proof/Laws/Step.lean ====
section
/-! SUPPORT. What a step can do, said once. -/

namespace Sys2Proof.Machine

/-- A latched word is served with its own two fields, whether it is a command or reserved. -/
theorem runLatched_eq {s : State} {l : Latched} (h : s.latched = some l) :
    runLatched s = serve (srcField l.cmd) (dstField l.cmd) s := by
  have key : ∀ i, ∀ c : CmdWord, decode c = .instr i → i.source.code = srcField c ∧ i.target.code = dstField c := by
    intro i; cases i <;> decide
  unfold runLatched
  rw [h]
  simp only
  split
  next i hi => rw [exec_eq_serve, (key _ _ hi).1, (key _ _ hi).2]
  all_goals rfl

/-- The response of the machine to the request in progress is the answer of the spec. -/
theorem serveResponse_eq_answer (c : Config) (cmd : CmdWord) (input : List Byte) (outCap : Nat) :
    serveResponse c (srcField cmd) (dstField cmd) input outCap = answer c.lenMultiple cmd input outCap := by
  have key : ∀ cmd : CmdWord,
      (orderOfCode (srcField cmd) = if cmd.getLsbD 1 then none else some (orderOfBit (cmd.getLsbD 0))) ∧
      (orderOfCode (dstField cmd) = if cmd.getLsbD 3 then none else some (orderOfBit (cmd.getLsbD 2))) := by
    decide
  unfold serveResponse answer
  rw [(key cmd).1, (key cmd).2]
  by_cases hlen : input.length % 3 ≠ 0 ∨ input.length % c.lenMultiple.value ≠ 0
  · have : lengthFails c input.length = true := by simpa [lengthFails] using hlen
    simp only [this, if_pos hlen, if_true]
  · have : lengthFails c input.length = false := by simpa [lengthFails] using hlen
    simp only [this, if_neg hlen]
    cases h1 : cmd.getLsbD 1 <;> cases h3 : cmd.getLsbD 3 <;> simp [capacityFails_eq_true]

/-- The block's turn, unless the host resets it. -/
theorem step_serving {s : State} {cmd : CmdWord} {outCap : Nat} (h : Serving s cmd outCap) (hr : NoReset s) :
    step s = .next (respond (answer s.config.lenMultiple cmd s.input outCap).status
      (answer s.config.lenMultiple cmd s.input outCap).out s) := by
  have hb : blockTurn s = runLatched s := by
    unfold blockTurn
    split
    next rest hh => exact absurd hh (hr rest)
    all_goals rfl
  simp only [step, h.1, hb, runLatched_eq h.2, serve_eq _ _ h, serveResponse_eq_answer]

/-- Everything a step can do when it answers a next state. -/
theorem step_cases {s t : State} (h : step s = .next t) :
    (s.phase = .idle ∧ s.host = [] ∧ t = s) ∨
    (∃ r rest, s.phase = .idle ∧ s.host = .request r :: rest ∧ r.presentable s.config = true ∧
      t = accept r { s with host := rest }) ∨
    (∃ rest, s.phase = .idle ∧ s.host = .wait :: rest ∧ t = { s with host := rest }) ∨
    (∃ rest, s.host = .reset :: rest ∧ t = resetBlock { s with host := rest }) ∨
    (∃ cmd outCap, Serving s cmd outCap ∧ NoReset s ∧
      t = respond (answer s.config.lenMultiple cmd s.input outCap).status
        (answer s.config.lenMultiple cmd s.input outCap).out s) := by
  cases hp : s.phase with
  | idle =>
    simp only [step, hp, hostTurn] at h
    split at h
    next hh => exact .inl ⟨rfl, hh, (Host.Outcome.next.inj h).symm⟩
    next r rest hh =>
      unfold present at h
      split at h
      next hpres => exact .inr (.inl ⟨r, rest, rfl, hh, hpres, (Host.Outcome.next.inj h).symm⟩)
      next => cases h
    next rest hh => exact .inr (.inr (.inl ⟨rest, rfl, hh, (Host.Outcome.next.inj h).symm⟩))
    next rest hh => exact .inr (.inr (.inr (.inl ⟨rest, hh, (Host.Outcome.next.inj h).symm⟩)))
  | busy =>
    by_cases hr : NoReset s
    · cases hl : s.latched with
      | none =>
        have : step s = .fault .noRequest := by
          simp only [step, hp, blockTurn, runLatched, hl]
          split
          next rest hh => exact absurd hh (hr rest)
          all_goals rfl
        rw [this] at h; cases h
      | some l =>
        have hs : Serving s l.cmd l.outCap := ⟨hp, hl⟩
        rw [step_serving hs hr] at h
        exact .inr (.inr (.inr (.inr ⟨_, _, hs, hr, (Host.Outcome.next.inj h).symm⟩)))
    · simp only [NoReset, not_forall, not_not] at hr
      obtain ⟨rest, hh⟩ := hr
      simp only [step, hp, blockTurn, hh] at h
      exact .inr (.inr (.inr (.inl ⟨rest, hh, (Host.Outcome.next.inj h).symm⟩)))

end Sys2Proof.Machine
end

