-- ==== Sys2Proof/Laws/PerInstr.lean ====
section
/-! SUPPORT. Statements for every command, made per constructor. -/

namespace Sys2Proof.Laws

/-- The command is well formed, its word is valid (30_encoding.md R64), and the table's numbering of that word, in a whole
byte, reads back as the command. -/
def TableWord.Statement (i : Instr) : Prop :=
  i.wellFormed = true ∧ cmdValid (encode i) = true ∧ decodeTableWord 8 (encode i).toNat = some i

theorem TableWord.convertRgbRgb : TableWord.Statement .convertRgbRgb := ⟨rfl, by decide, by decide⟩
theorem TableWord.convertBgrRgb : TableWord.Statement .convertBgrRgb := ⟨rfl, by decide, by decide⟩
theorem TableWord.convertRgbBgr : TableWord.Statement .convertRgbBgr := ⟨rfl, by decide, by decide⟩
theorem TableWord.convertBgrBgr : TableWord.Statement .convertBgrBgr := ⟨rfl, by decide, by decide⟩

end Sys2Proof.Laws
end

