-- ==== Sys2Proof/Tests/Slice0.lean ====
section
/-! SUPPORT. The model's own tests. Expected values are those of the spec: 95_test_vectors.md (S1 to S9, V1 to V27, P1 to
P4) and the tables of 30_encoding.md. Then one witness for the hypotheses of each statement, clause by clause. -/

open Sys2Proof Sys2Proof.Machine

/-- A block that is serving one request, at a setting of LEN_MULTIPLE. -/
def servingState (m : LenMultiple) (cmd : CmdWord) (input : List Byte) (outCap : Nat) : State :=
  accept ⟨cmd, input, outCap⟩ (State.resetWith ⟨m, none, 0⟩)

/-- A block in IDLE with these moves of the host to come. -/
def idleState (moves : List HostMove) : State := { State.reset with host := moves }

/-- The response a next state holds. -/
def responseOf (o : Host.Outcome State Fault Refusal) : Option Response :=
  match o with
  | .next t => t.response
  | .fault _ => none
  | .refused _ => none

/-- A host with no moves left does not reset. -/
theorem noReset_of_no_moves {s : State} (h : s.host = []) : NoReset s := fun _ h' => by
  rw [h] at h'
  cases h'

/-! WellFormed: what each check refuses. -/

/-- 30_encoding.md R65: CMD[1] = 1 is reserved. -/
theorem test_wellformed_refuses_reserved_source : cmdValid 0b0010#4 = false := by decide
/-- R65: CMD[3] = 1 is reserved. -/
theorem test_wellformed_refuses_reserved_target : cmdValid 0b1000#4 = false := by decide
/-- 00_scope.md R8: an input one byte longer than MAX_IN_LEN cannot be presented. -/
theorem test_wellformed_refuses_too_long :
    Request.presentable ⟨.three, some 2, 0⟩ ⟨0x0#4, [1#8, 2#8, 3#8], 2⟩ = false := by decide

/-! Words written out from R61 and R62, `ddss`. -/

theorem test_decode_rgb_rgb : decode 0b0000#4 = .instr .convertRgbRgb := by decide
theorem test_decode_bgr_rgb : decode 0b0001#4 = .instr .convertBgrRgb := by decide
theorem test_decode_rgb_bgr : decode 0b0100#4 = .instr .convertRgbBgr := by decide
theorem test_decode_bgr_bgr : decode 0b0101#4 = .instr .convertBgrBgr := by decide
/-- 95_test_vectors.md section 2.7: 0x2 is `CONVERT #2, rgb`, 0x8 is `CONVERT rgb, #2`, 0xF is `CONVERT #3, #3`. -/
theorem test_decode_reserved :
    decode 0x2#4 = .reservedSource ∧ decode 0x8#4 = .reservedTarget ∧ decode 0xF#4 = .reservedBoth := by decide
/-- R71: the five encoding examples. -/
theorem test_assemble_examples :
    assemble .rgb .rgb = 0x0#4 ∧ assemble .rgb .bgr = 0x4#4 ∧ assemble .bgr .rgb = 0x1#4 ∧
    assemble .bgr .bgr = 0x5#4 ∧ assemble (.number 2) .rgb = 0x2#4 := by decide
/-- R72: 0x2 is printed as `CONVERT #2, rgb` and marked reserved. -/
theorem test_disassemble_reserved :
    (disassemble 0x2#4).text = "CONVERT #2, rgb" ∧ (disassemble 0x2#4).reserved = true := by decide
/-- R69: the spellings, and one that is not accepted. -/
theorem test_tag_spellings :
    tagTextOfSpelling "bgr" = some .bgr ∧ tagTextOfSpelling "#3" = some (.number 3) ∧
    tagTextOfSpelling "RGB" = none := by decide
/-- A number that does not fit in the 4 bits of CMD is no command word. -/
theorem test_table_word_too_wide : decodeTableWord 8 16 = none := by decide

/-! The commands, two each. -/

/-- S1. -/
theorem test_rgb_rgb_s1 :
    responseOf (step (servingState .three 0x0#4 [0xFF#8, 0x00#8, 0x80#8] 2)) = some ⟨.ok, [0xF8#8, 0x10#8]⟩ := by decide
/-- P1, request 1. -/
theorem test_rgb_rgb_p1 :
    responseOf (exec .convertRgbRgb
      (servingState .three 0x0#4 [0xFF#8, 0x00#8, 0x80#8, 0x12#8, 0x34#8, 0x56#8] 4)) =
    some ⟨.ok, [0xF8#8, 0x10#8, 0x11#8, 0xAA#8]⟩ := by decide
/-- S2. -/
theorem test_rgb_bgr_s2 :
    responseOf (step (servingState .three 0x4#4 [0xFF#8, 0x00#8, 0x80#8] 2)) = some ⟨.ok, [0x80#8, 0x1F#8]⟩ := by decide
/-- P1, request 2. -/
theorem test_rgb_bgr_p1 :
    responseOf (exec .convertRgbBgr
      (servingState .three 0x4#4 [0xFF#8, 0x00#8, 0x80#8, 0x12#8, 0x34#8, 0x56#8] 4)) =
    some ⟨.ok, [0x80#8, 0x1F#8, 0x51#8, 0xA2#8]⟩ := by decide
/-- Section 2.4, the pixel 0xAB, 0xCD, 0xEF. -/
theorem test_bgr_rgb_mixed :
    responseOf (step (servingState .three 0x1#4 [0xAB#8, 0xCD#8, 0xEF#8] 2)) = some ⟨.ok, [0xEE#8, 0x75#8]⟩ := by decide
/-- P2: eight pixels at LEN_MULTIPLE 24, here on a block with three lanes. -/
theorem test_bgr_rgb_p2 :
    responseOf (exec .convertBgrRgb (State.withLanes (servingState .twentyFour 0x1#4
      [0x00#8, 0x00#8, 0xFF#8, 0x00#8, 0xFF#8, 0x00#8, 0xFF#8, 0x00#8, 0x00#8, 0xFF#8, 0xFF#8, 0xFF#8,
       0x00#8, 0x00#8, 0x00#8, 0x80#8, 0x80#8, 0x80#8, 0x56#8, 0x34#8, 0x12#8, 0xEF#8, 0xCD#8, 0xAB#8] 16) 2)) =
    some ⟨.ok, [0xF8#8, 0x00#8, 0x07#8, 0xE0#8, 0x00#8, 0x1F#8, 0xFF#8, 0xFF#8,
      0x00#8, 0x00#8, 0x84#8, 0x10#8, 0x11#8, 0xAA#8, 0xAE#8, 0x7D#8]⟩ := by decide
/-- P4, request 2: the legacy shape with bgr. -/
theorem test_bgr_bgr_p4 :
    responseOf (step (servingState .three (assembleCs .bgr) [0xAB#8, 0xCD#8, 0xEF#8, 0x08#8, 0x04#8, 0x08#8] 4)) =
    some ⟨.ok, [0xAE#8, 0x7D#8, 0x08#8, 0x21#8]⟩ := by decide
/-- V26: no capacity for one pixel. -/
theorem test_bgr_bgr_v26 :
    responseOf (exec .convertBgrBgr (servingState .three 0x5#4 [0#8, 0#8, 0#8] 0)) =
    some ⟨.allocationFailure, []⟩ := by decide

/-! Reserved words and the priority of errors. -/

/-- V21: a reserved tag is reported even when n = 0. -/
theorem test_reserved_v21 :
    responseOf (step (servingState .three 0x6#4 [] 0)) = some ⟨.invalidChannelOrder, []⟩ := by decide
/-- V22: MalformedInput over InvalidChannelOrder. -/
theorem test_reserved_v22 :
    responseOf (step (servingState .three 0x2#4 [0#8, 0#8, 0#8, 0#8] 100)) = some ⟨.malformedInput, []⟩ := by decide
/-- V23: InvalidChannelOrder over AllocationFailure. -/
theorem test_reserved_v23 :
    responseOf (step (servingState .three 0x2#4 [0#8, 0#8, 0#8] 0)) = some ⟨.invalidChannelOrder, []⟩ := by decide
/-- V25: at LEN_MULTIPLE 24, MalformedInput over AllocationFailure. -/
theorem test_malformed_v25 :
    responseOf (step (servingState .twentyFour 0x5#4 [0#8, 0#8, 0#8, 0#8, 0#8, 0#8] 0)) =
    some ⟨.malformedInput, []⟩ := by decide

/-- The first step after reset runs the word that was put in: 0x4 on the empty input is OK (R107). -/
theorem test_fetched_word_runs_after_reset :
    responseOf (step (State.reset.withFetchWord 8 4)) = some ⟨.ok, []⟩ := by decide

/-- 70_reset_and_hazards.md R141: a reset while BUSY gives no response, and IN is unchanged. -/
theorem test_reset_aborts :
    ∃ t, step { servingState .three 0x0#4 [1#8, 2#8, 3#8] 2 with host := [.reset] } = .next t ∧
      t.phase = .idle ∧ t.response = none ∧ t.input = [1#8, 2#8, 3#8] := ⟨_, rfl, rfl, rfl, rfl⟩

/-! Witnesses: concrete states and operands that meet the hypotheses of the statements. -/

/-- One pixel, at exactly its capacity (V5); reused below. -/
def onePixel : State := servingState .three 0x0#4 [0x12#8, 0x34#8, 0x56#8] 2

/-- Serving without a reset to come: ServedRequestGetsTheAnswer, MalformedInputIffLengthFails,
InvalidChannelOrderIffTagReserved, AllocationFailureIffOverCapacity, SizeLaw. -/
theorem witness_serving : Serving onePixel 0x0#4 2 ∧ NoReset onePixel :=
  ⟨⟨rfl, rfl⟩, noReset_of_no_moves rfl⟩

/-- The right-hand sides of the three iff statements each hold somewhere: a length of 4 (V7), a reserved source with a
good length (V16), a capacity of 1 for 2 bytes (V6). -/
theorem witness_each_error :
    (servingState .three 0x0#4 [0#8, 0#8, 0#8, 0#8] 100).input.length % 3 ≠ 0 ∧
    (LengthOk (servingState .three 0x2#4 [0#8, 0#8, 0#8] 2) ∧ (0x2#4 : CmdWord).getLsbD 1 = true) ∧
    (LengthOk (servingState .three 0x0#4 [0#8, 0#8, 0#8] 1) ∧
      2 * ((servingState .three 0x0#4 [0#8, 0#8, 0#8] 1).input.length / 3) > 1) := by
  unfold LengthOk; decide

/-- The three clauses of VariantMeans (ConvertRgbRgbResult, ConvertRgbBgrResult, ConvertBgrRgbResult,
ConvertBgrBgrResult): exact capacity with the record of pixel 0; a length of 6 at LEN_MULTIPLE 24 (V10); one byte too little
capacity (V6). -/
theorem witness_variant_completes :
    Serving onePixel 0x0#4 2 ∧ LengthOk onePixel ∧ 2 * (onePixel.input.length / 3) ≤ 2 ∧
    onePixel.input[3 * 0]? = some 0x12#8 ∧ onePixel.input[3 * 0 + 1]? = some 0x34#8 ∧
    onePixel.input[3 * 0 + 2]? = some 0x56#8 :=
  ⟨⟨rfl, rfl⟩, (by unfold LengthOk; decide), by decide, rfl, rfl, rfl⟩
theorem witness_variant_malformed :
    Serving (servingState .twentyFour 0x0#4 [0#8, 0#8, 0#8, 0#8, 0#8, 0#8] 4) 0x0#4 4 ∧
    ¬ LengthOk (servingState .twentyFour 0x0#4 [0#8, 0#8, 0#8, 0#8, 0#8, 0#8] 4) :=
  ⟨⟨rfl, rfl⟩, by unfold LengthOk; decide⟩
theorem witness_variant_allocation :
    Serving (servingState .three 0x0#4 [0#8, 0#8, 0#8] 1) 0x0#4 1 ∧
    LengthOk (servingState .three 0x0#4 [0#8, 0#8, 0#8] 1) ∧
    1 < 2 * ((servingState .three 0x0#4 [0#8, 0#8, 0#8] 1).input.length / 3) :=
  ⟨⟨rfl, rfl⟩, (by unfold LengthOk; decide), by decide⟩

/-- OpcodeMapOfSixteenWords: a word that is none of the four. -/
theorem witness_other_word : (0x2#4 : CmdWord) ≠ 0x0#4 ∧ (0x2#4 : CmdWord) ≠ 0x1#4 ∧ (0x2#4 : CmdWord) ≠ 0x4#4 ∧
    (0x2#4 : CmdWord) ≠ 0x5#4 := by decide
/-- EncodeDecodeAgree: a word that decodes to a command. -/
theorem witness_decoding_word : decode 0x5#4 = .instr .convertBgrBgr := by decide
/-- PixelIgnoresDroppedBits: pixels that differ in dropped bits only (95_test_vectors.md section 2.4). -/
theorem witness_dropped_bits_of_a_pixel :
    (0xFF#8).extractLsb 7 3 = (0xF8#8).extractLsb 7 3 ∧ (0xFF#8).extractLsb 7 2 = (0xFC#8).extractLsb 7 2 ∧
    (0x00#8).extractLsb 7 3 = (0x07#8).extractLsb 7 3 := by decide
/-- ReadsOfInputInAndOutOfRange: the last index inside, and the first outside. -/
theorem witness_read_edges : 2 < onePixel.input.length ∧ onePixel.input.length ≤ 3 := by decide
/-- WriteOfOutputFrame: the last index inside, an index beside it, and the first outside. -/
theorem witness_write_edges : 1 < 2 * (onePixel.input.length / 3) ∧ 0 ≠ 1 ∧ onePixel.out.wf ∧
    2 * (onePixel.input.length / 3) ≤ 2 := by decide
/-- CanonicalStoragesAreExtensional: two storages written in different orders. -/
theorem witness_canonical_storages :
    ((Memory.empty.write 1 0xAA#8).write 0 0x11#8).wf ∧ ((Memory.empty.write 0 0x11#8).write 1 0xAA#8).wf ∧
    ∀ a, ((Memory.empty.write 1 0xAA#8).write 0 0x11#8).read a = ((Memory.empty.write 0 0x11#8).write 1 0xAA#8).read a := by
  refine ⟨by decide, by decide, fun a => ?_⟩
  have h : (Memory.empty.write 1 0xAA#8).write 0 0x11#8 = (Memory.empty.write 0 0x11#8).write 1 0xAA#8 := by decide
  rw [h]
/-- PixelWritesOnlyItsRecord, and an index outside the record. -/
theorem witness_pixel_record :
    onePixel.input[3 * 0]? = some 0x12#8 ∧ onePixel.input[3 * 0 + 1]? = some 0x34#8 ∧
    onePixel.input[3 * 0 + 2]? = some 0x56#8 ∧ 2 ≠ 2 * 0 ∧ 2 ≠ 2 * 0 + 1 := by decide
/-- EveryVisitingOrderGivesInOrderMap: three pixels, last first. -/
theorem witness_visiting_order :
    [2, 0, 1].Perm (List.range ((servingState .three 0x0#4 (List.replicate 9 0x12#8) 6).input.length / 3)) := by decide
/-- CommandFrame: a command that answers a next state. -/
theorem witness_command_answers : ∃ t, exec .convertRgbRgb onePixel = .next t := ⟨_, rfl⟩
/-- CommandWithoutRequestFaults. -/
theorem witness_no_request : State.reset.phase = .idle ∨ State.reset.latched = none := .inl rfl
/-- OutputIsBigEndian. -/
theorem witness_big_endian :
    Serving onePixel (cmdOfCodes (ChannelOrder.code .rgb) (ChannelOrder.code .rgb)) 2 ∧ NoReset onePixel ∧
    LengthOk onePixel ∧ 2 * (onePixel.input.length / 3) ≤ 2 ∧ onePixel.input[3 * 0]? = some 0x12#8 ∧
    onePixel.input[3 * 0 + 1]? = some 0x34#8 ∧ onePixel.input[3 * 0 + 2]? = some 0x56#8 :=
  ⟨⟨rfl, rfl⟩, noReset_of_no_moves rfl, by unfold LengthOk; decide, by decide, rfl, rfl, rfl⟩
/-- DroppedBitsDoNotReachTheOutput: two inputs that differ in dropped bits. -/
theorem witness_same_kept_bits : SameKeptBits [0x07#8, 0x03#8, 0x07#8] [0x00#8, 0x00#8, 0x00#8] := by
  refine ⟨rfl, fun k a b ha hb => ?_⟩
  match k with
  | 0 => cases ha; cases hb; decide
  | 1 => cases ha; cases hb; decide
  | 2 => cases ha; cases hb; decide
  | k + 3 => cases ha
/-- DroppedBitsDoNotReachTheOutput, StatusIgnoresPixelValues: two serving states of one command and capacity, with
inputs of one length that differ. -/
theorem witness_two_requests :
    Serving (servingState .three 0x4#4 [0x07#8, 0x03#8, 0x07#8] 2) 0x4#4 2 ∧
    Serving (servingState .three 0x4#4 [0x00#8, 0x00#8, 0x00#8] 2) 0x4#4 2 ∧
    NoReset (servingState .three 0x4#4 [0x07#8, 0x03#8, 0x07#8] 2) ∧
    NoReset (servingState .three 0x4#4 [0x00#8, 0x00#8, 0x00#8] 2) :=
  ⟨⟨rfl, rfl⟩, ⟨rfl, rfl⟩, noReset_of_no_moves rfl, noReset_of_no_moves rfl⟩
/-- SameRequestSameResponse: one request on two machines that differ elsewhere. -/
theorem witness_same_request :
    Serving onePixel 0x0#4 2 ∧ Serving (onePixel.withLanes 3) 0x0#4 2 ∧ NoReset onePixel ∧
    NoReset (onePixel.withLanes 3) ∧ onePixel.config.lenMultiple = (onePixel.withLanes 3).config.lenMultiple ∧
    onePixel.input = (onePixel.withLanes 3).input ∧ onePixel ≠ onePixel.withLanes 3 :=
  ⟨⟨rfl, rfl⟩, ⟨rfl, rfl⟩, noReset_of_no_moves rfl, noReset_of_no_moves rfl, rfl, rfl, by decide⟩
/-- LanesCannotBeObserved, PhaseChangesOnlyByAcceptResponseReset (from BUSY): a step that answers a next state. -/
theorem witness_step_answers : onePixel.phase = .busy ∧ ∃ t, step onePixel = .next t := ⟨rfl, _, rfl⟩
/-- EmptyRequestAnswer, both clauses (V1 and V21). -/
theorem witness_empty_request :
    (Serving (servingState .three 0x0#4 [] 0) 0x0#4 0 ∧ NoReset (servingState .three 0x0#4 [] 0) ∧
      (servingState .three 0x0#4 [] 0).input = [] ∧ cmdValid 0x0#4 = true) ∧
    (Serving (servingState .three 0x6#4 [] 0) 0x6#4 0 ∧ NoReset (servingState .three 0x6#4 [] 0) ∧
      (servingState .three 0x6#4 [] 0).input = [] ∧ cmdValid 0x6#4 = false) :=
  ⟨⟨⟨rfl, rfl⟩, noReset_of_no_moves rfl, rfl, by decide⟩, ⟨rfl, rfl⟩, noReset_of_no_moves rfl, rfl, by decide⟩
/-- ConvertCsMeaning: bgr; #2 with a good length; #3 with a bad one (95_test_vectors.md section 2.6). -/
theorem witness_convert_cs_valid :
    Serving (servingState .three (assembleCs .bgr) [0xAB#8, 0xCD#8, 0xEF#8] 2) (assembleCs .bgr) 2 ∧
    NoReset (servingState .three (assembleCs .bgr) [0xAB#8, 0xCD#8, 0xEF#8] 2) ∧ TagText.code .bgr = 0b01#2 :=
  ⟨⟨rfl, rfl⟩, noReset_of_no_moves rfl, rfl⟩
theorem witness_convert_cs_reserved :
    (Serving (servingState .three (assembleCs (.number 2)) [0xAB#8, 0xCD#8, 0xEF#8] 2) (assembleCs (.number 2)) 2 ∧
      LengthOk (servingState .three (assembleCs (.number 2)) [0xAB#8, 0xCD#8, 0xEF#8] 2)) ∧
    (Serving (servingState .three (assembleCs (.number 3)) [0xAB#8, 0xCD#8] 2) (assembleCs (.number 3)) 2 ∧
      ¬ LengthOk (servingState .three (assembleCs (.number 3)) [0xAB#8, 0xCD#8] 2)) ∧
    TagText.code (.number 2) = 0b10#2 ∧ TagText.code (.number 3) = 0b11#2 :=
  ⟨⟨⟨rfl, rfl⟩, by unfold LengthOk; decide⟩, ⟨⟨rfl, rfl⟩, by unfold LengthOk; decide⟩, by decide, by decide⟩
/-- StepRunsTheDecodedCommand, both clauses. -/
theorem witness_step_clauses :
    (Serving onePixel 0x0#4 2 ∧ NoReset onePixel ∧ decode 0x0#4 = .instr .convertRgbRgb) ∧
    (Serving (servingState .three 0x8#4 [] 0) 0x8#4 0 ∧ NoReset (servingState .three 0x8#4 [] 0) ∧
      ∀ i, decode 0x8#4 ≠ .instr i) :=
  ⟨⟨⟨rfl, rfl⟩, noReset_of_no_moves rfl, by decide⟩, ⟨rfl, rfl⟩, noReset_of_no_moves rfl, (fun i => by cases i <;> decide)⟩
/-- ResetAbortsTheRequest, with the first index that the aborted request could not have written. -/
theorem witness_reset_in_busy :
    Serving { onePixel with host := [.reset] } 0x0#4 2 ∧ 2 * (onePixel.input.length / 3) ≤ 2 := ⟨⟨rfl, rfl⟩, by decide⟩
/-- ResetInIdle. -/
theorem witness_reset_in_idle : (idleState [.reset]).phase = .idle ∧ (idleState [.reset]).latched = none ∧
    (idleState [.reset]).host = .reset :: [] := ⟨rfl, rfl, rfl⟩
/-- AcceptanceLatchesTheRequest (its two parts), InputIsPreserved, AcceptedRequestGetsOneResponse, and
PhaseChangesOnlyByAcceptResponseReset (to BUSY). -/
theorem witness_acceptance :
    ((idleState [.request ⟨0x0#4, [0x12#8, 0x34#8, 0x56#8], 2⟩]).phase = .idle ∧
      Request.presentable (idleState []).config ⟨0x0#4, [0x12#8, 0x34#8, 0x56#8], 2⟩ = true) ∧
    (∀ rest', ([] : List HostMove) ≠ .reset :: rest') ∧
    (∃ t, step (idleState [.request ⟨0x0#4, [0x12#8, 0x34#8, 0x56#8], 2⟩]) = .next t ∧ t.phase = .busy) ∧
    onePixel.phase = .busy :=
  ⟨⟨rfl, rfl⟩, (fun _ h => by cases h), ⟨_, rfl, rfl⟩, rfl⟩
/-- SecondRequestIsNotAdmitted. -/
theorem witness_second_request :
    Serving { onePixel with host := [.request ⟨0x5#4, [], 0⟩] } 0x0#4 2 ∧
    ({ onePixel with host := [.request ⟨0x5#4, [], 0⟩] } : State).host = .request ⟨0x5#4, [], 0⟩ :: [] := ⟨⟨rfl, rfl⟩, rfl⟩
/-- OversizedRequestIsRefused, both clauses: 3 bytes against MAX_IN_LEN 2 and 3. -/
theorem witness_oversized :
    (2 < [1#8, 2#8, 3#8].length ∧ [1#8, 2#8, 3#8].length ≤ 3) ∧
    ({ State.resetWith ⟨.three, some 2, 0⟩ with host := [.request ⟨0x0#4, [1#8, 2#8, 3#8], 2⟩] } : State).phase = .idle ∧
    (State.resetWith ⟨.three, some 2, 0⟩).config.maxInLen = some 2 ∧
    (State.resetWith ⟨.three, some 3, 0⟩).config.maxInLen = some 3 := by decide
/-- P3, requests 3 and 4: the first lacks capacity, the second has exactly enough. -/
def failingRequest : Request := ⟨0x0#4, [0x10#8, 0x20#8, 0x30#8, 0x40#8, 0x50#8, 0x60#8], 3⟩
def completingRequest : Request := ⟨0x0#4, [0x10#8, 0x20#8, 0x30#8, 0x40#8, 0x50#8, 0x60#8], 4⟩
/-- RequestsAreServedIndependently: a request that fails, then one that completes. -/
theorem witness_request_sequence :
    (idleState (([failingRequest] ++ [completingRequest]).map HostMove.request ++ [])).phase = .idle ∧
    (∀ rest', ([] : List HostMove) ≠ .reset :: rest') ∧
    ∀ q ∈ [failingRequest] ++ [completingRequest], q.presentable State.reset.config = true :=
  ⟨rfl, (fun _ h => by cases h), fun _ _ => rfl⟩
/-- EveryStepKeepsTheInvariant, NoStepFaults: a serving state that meets the invariant and steps. -/
theorem witness_invariant : onePixel.Inv ∧ ∃ t, step onePixel = .next t := by
  refine ⟨⟨by decide, fun _ => ⟨rfl, rfl⟩, fun m _ h => ?_, Memory.empty_wf, fun _ h => ?_, fun _ h => ?_⟩, _, rfl⟩
  · cases h
  · cases h
  · cases h
end

section
/-! PROOF. The host's turn with a request to present: accepted within MAX_IN_LEN, refused above it (R8, R27, D5). -/

namespace Sys2Proof.Machine

theorem presentable_iff_of_maxInLen {c : Config} {m : Nat} (h : c.maxInLen = some m) (r : Request) :
    r.presentable c = true ↔ r.input.length ≤ m := by
  simp [Request.presentable, h]

/-- In IDLE the request at the head of the host's moves is presented, and it is no longer among the moves. -/
theorem step_idle_request {s : State} {r : Request} {rest : List HostMove} (hp : s.phase = .idle)
    (hh : s.host = .request r :: rest) : step s = present r { s with host := rest } := by
  simp only [step, hp, hostTurn, hh]

theorem step_accepts {s : State} {r : Request} {rest : List HostMove} (hp : s.phase = .idle)
    (hh : s.host = .request r :: rest) (hr : r.presentable s.config = true) :
    step s = .next (accept r { s with host := rest }) :=
  (step_idle_request hp hh).trans (if_pos hr)

theorem step_refuses {s : State} {r : Request} {rest : List HostMove} (hp : s.phase = .idle)
    (hh : s.host = .request r :: rest) (hr : ¬ r.presentable s.config = true) :
    step s = .refused (.inputTooLong r.input.length) :=
  (step_idle_request hp hh).trans (if_neg hr)

/-- A request that has just been accepted is being served. -/
theorem accept_serving (r : Request) (s : State) : Serving (accept r s) r.cmd r.outCap := ⟨rfl, rfl⟩

end Sys2Proof.Machine

open Sys2Proof.Machine

/-- Settles O47: whether a request is presentable is the comparison of its length with MAX_IN_LEN, and the step from IDLE
branches on just that. -/
theorem oversizedRequestIsRefused : Obligations.OversizedRequestIsRefused := by
  intro s r rest m hp hh hm
  have hpres := presentable_iff_of_maxInLen hm r
  constructor
  · intro hlong
    exact step_refuses hp hh fun hr => Nat.not_le_of_lt hlong (hpres.mp hr)
  · intro hfits
    exact ⟨_, step_accepts hp hh (hpres.mpr hfits), accept_serving r _⟩
end

section
/-! PROOF. The invariant of a run: it holds after reset, and accepting, resetting and responding each establish it again
(10_state.md R23, R33, R34, R48, R97). -/

namespace Sys2Proof.Machine

section ResetWith
variable (c : Config)
@[simp] theorem resetWith_config : (State.resetWith c).config = c := rfl
@[simp] theorem resetWith_phase : (State.resetWith c).phase = .idle := rfl
@[simp] theorem resetWith_latched : (State.resetWith c).latched = none := rfl
@[simp] theorem resetWith_out : (State.resetWith c).out = Memory.empty := rfl
@[simp] theorem resetWith_response : (State.resetWith c).response = none := rfl
end ResetWith

/-- An OK answer has passed the length check and obeys the size law (R97). -/
theorem answer_ok_size {m : LenMultiple} {cmd : CmdWord} {input bytes : List Byte} {outCap : Nat}
    (h : answer m cmd input outCap = ⟨.ok, bytes⟩) :
    (input.length % 3 = 0 ∧ input.length % m.value = 0) ∧ bytes.length = 2 * (input.length / 3) := by
  unfold answer at h
  split at h
  · cases h
  next hlen =>
    split at h
    · cases h
    · split at h
      · cases h
      · cases h
        exact ⟨by simpa using hlen, pixelMap_length _ _ _⟩

/-- An answer that is not OK hands over no byte (R97). -/
theorem answer_error_empty {m : LenMultiple} {cmd : CmdWord} {input : List Byte} {outCap : Nat}
    (h : (answer m cmd input outCap).status ≠ .ok) : (answer m cmd input outCap).out = [] := by
  unfold answer at h ⊢
  split
  · rfl
  next hlen =>
    split
    · rfl
    next htag =>
      split
      · rfl
      next hcap => simp only [if_neg hlen, if_neg htag, if_neg hcap, ne_eq, not_true_eq_false] at h

/-- In IDLE the invariant is that nothing is latched, OUT is canonical and the response obeys the size law. -/
theorem inv_of_idle {s : State} (hp : s.phase = .idle) (hl : s.latched = none) (hw : s.out.wf)
    (hok : ∀ bytes, s.response = some ⟨.ok, bytes⟩ → LengthOk s ∧ bytes.length = 2 * (s.input.length / 3))
    (herr : ∀ p, s.response = some p → p.status ≠ .ok → p.out = []) : s.Inv where
  latched_iff_busy := by simp [hp, hl]
  busy_fresh hb := by simp [hp] at hb
  busy_presentable _ hb := by simp [hp] at hb
  out_wf := hw
  ok_size := hok
  error_empty := herr

/-- A state in IDLE with no response pending meets the invariant when nothing is latched and OUT is canonical. -/
theorem inv_of_idle_of_no_response {s : State} (hp : s.phase = .idle) (hl : s.latched = none) (hw : s.out.wf)
    (hr : s.response = none) : s.Inv :=
  inv_of_idle hp hl hw (fun _ h => by simp [hr] at h) (fun _ h => by simp [hr] at h)

theorem resetWith_inv (c : Config) : (State.resetWith c).Inv :=
  inv_of_idle_of_no_response (resetWith_phase c) (resetWith_latched c) Memory.empty_wf (resetWith_response c)

/-- The invariant says nothing of the moves the host has still to make. -/
theorem State.Inv.withHost {s : State} (h : s.Inv) (moves : List HostMove) : ({ s with host := moves } : State).Inv where
  latched_iff_busy := h.latched_iff_busy
  busy_fresh := h.busy_fresh
  busy_presentable := h.busy_presentable
  out_wf := h.out_wf
  ok_size := h.ok_size
  error_empty := h.error_empty

/-- Accepting a request that could be presented establishes the invariant, from any state. -/
theorem accept_inv {r : Request} {s : State} (hr : r.presentable s.config = true) : (accept r s).Inv where
  latched_iff_busy := by simp
  busy_fresh _ := ⟨accept_out r s, accept_response r s⟩
  busy_presentable _ _ hm := (presentable_iff_of_maxInLen hm r).mp hr
  out_wf := Memory.empty_wf
  ok_size _ h := by simp at h
  error_empty _ h := by simp at h

/-- Reset establishes the invariant, in either phase: an abort leaves free bytes, and leaves them in canonical form. -/
theorem resetBlock_inv {s : State} (hw : s.out.wf) : (resetBlock s).Inv :=
  inv_of_idle_of_no_response (resetBlock_phase s) (resetBlock_latched s) (resetBlock_out_wf hw) (resetBlock_response s)

/-- Responding with the answer of the spec to the IN that stands in the state establishes the invariant. -/
theorem respond_answer_inv (cmd : CmdWord) (outCap : Nat) (s : State) :
    (respond (answer s.config.lenMultiple cmd s.input outCap).status
      (answer s.config.lenMultiple cmd s.input outCap).out s).Inv := by
  refine inv_of_idle rfl rfl Memory.empty_wf (fun bytes h => ?_) (fun p h hp => ?_)
  · exact answer_ok_size (Option.some.inj h)
  · cases h
    exact answer_error_empty hp

/-- Whatever a step does, it keeps the invariant. -/
theorem step_inv {s t : State} (hs : s.Inv) (h : step s = .next t) : t.Inv := by
  rcases step_cases h with ⟨-, -, rfl⟩ | ⟨r, rest, -, -, hr, rfl⟩ | ⟨rest, -, -, rfl⟩ | ⟨rest, -, rfl⟩ |
    ⟨cmd, outCap, -, -, rfl⟩
  · exact hs
  · exact accept_inv hr
  · exact hs.withHost rest
  · exact resetBlock_inv hs.out_wf
  · exact respond_answer_inv cmd outCap s

end Sys2Proof.Machine

open Sys2Proof.Machine

/-- Settles O52, by the cases of a step: each operation it can end in establishes the invariant. -/
theorem everyStepKeepsTheInvariant : Obligations.EveryStepKeepsTheInvariant :=
  fun _ _ hs h => step_inv hs h

/-- Settles O51: after reset the block is IDLE with nothing latched, nothing written and no response. -/
theorem resetMeetsTheInvariant : Obligations.ResetMeetsTheInvariant := resetWith_inv

/-- Settles O41, field by field. -/
theorem stateAfterReset : Obligations.StateAfterReset :=
  ⟨fun c => ⟨resetWith_phase c, resetWith_latched c, resetWith_response c, resetWith_out c, resetWith_config c⟩,
    rfl, rfl⟩

/-- Settles O45: of the five things a step can do only acceptance ends in BUSY, and only reset and the response start
there. -/
theorem phaseChangesOnlyByAcceptResponseReset : Obligations.PhaseChangesOnlyByAcceptResponseReset := by
  intro s t h
  rcases step_cases h with ⟨hp, -, rfl⟩ | ⟨r, rest, hp, hh, -, rfl⟩ | ⟨rest, hp, -, rfl⟩ | ⟨rest, hh, rfl⟩ |
    ⟨cmd, outCap, -, -, rfl⟩
  · simp [hp]
  · exact ⟨fun _ => ⟨hp, r, rest, hh, accept_latched r _⟩, fun hb => by simp [hp] at hb⟩
  · simp [hp]
  · exact ⟨fun hb => by simp at hb, fun _ => ⟨resetBlock_phase _, .inr ⟨rest, hh⟩⟩⟩
  · exact ⟨fun hb => by simp at hb, fun _ => ⟨respond_phase _ _ s, .inl ⟨_, respond_response _ _ s⟩⟩⟩
end

section
/-! PROOF. The STATUS codes can be told apart (10_state.md R25, 60_exceptions.md R120). -/

namespace Sys2Proof.Machine

/-- The STATUS that a reader of the 2-bit code sees (R25). -/
def statusOfCode (c : BitVec 2) : Status :=
  if c = 0#2 then .ok
  else if c = 1#2 then .malformedInput
  else if c = 2#2 then .invalidChannelOrder
  else .allocationFailure

theorem statusOfCode_code (st : Status) : statusOfCode st.code = st := by
  cases st <;> rfl

theorem status_code_injective : Function.Injective Status.code :=
  Function.LeftInverse.injective statusOfCode_code

end Sys2Proof.Machine

open Sys2Proof.Machine

/-- Settles O30: the numbers by computation; no two agree, because the code can be read back. -/
theorem statusCodeNumbers : Obligations.StatusCodeNumbers :=
  ⟨rfl, rfl, rfl, rfl, fun _ _ h => status_code_injective h⟩
end

section
/-! PROOF. A sequence of requests, two steps for each: acceptance, then service (10_state.md R30, R129, R148). -/

namespace Sys2Proof.Machine

/-- A run of `j + k` steps is a run of `k` steps from where the first `j` end. -/
theorem runSteps_add {j : Nat} {s t : State} (k : Nat) (h : runSteps j s = .next t) :
    runSteps (j + k) s = runSteps k t := by
  induction j generalizing s with
  | zero =>
    cases h
    rw [Nat.zero_add]
  | succ j ih =>
    rw [Nat.succ_add]
    simp only [runSteps] at h ⊢
    cases hs : step s with
    | next u =>
      rw [hs] at h
      exact ih h
    | fault f => simp [hs] at h
    | refused f => simp [hs] at h

/-- The state in which request `r` has been accepted and answered, with the moves `rest` still to come. -/
def answered (r : Request) (rest : List HostMove) (s : State) : State :=
  respond (answer s.config.lenMultiple r.cmd r.input r.outCap).status
    (answer s.config.lenMultiple r.cmd r.input r.outCap).out (accept r { s with host := rest })

section Answered
variable (r : Request) (rest : List HostMove) (s : State)
@[simp] theorem answered_config : (answered r rest s).config = s.config := rfl
@[simp] theorem answered_phase : (answered r rest s).phase = .idle := rfl
@[simp] theorem answered_latched : (answered r rest s).latched = none := rfl
@[simp] theorem answered_input : (answered r rest s).input = r.input := rfl
@[simp] theorem answered_host : (answered r rest s).host = rest := rfl
@[simp] theorem answered_response :
    (answered r rest s).response = some (answer s.config.lenMultiple r.cmd r.input r.outCap) := rfl
end Answered

/-- One request that the host presents in IDLE takes two steps, unless a reset follows it. -/
theorem runSteps_two_of_request {s : State} {r : Request} {rest : List HostMove} (hp : s.phase = .idle)
    (hh : s.host = .request r :: rest) (hr : r.presentable s.config = true)
    (hrest : ∀ rest', rest ≠ .reset :: rest') : runSteps 2 s = .next (answered r rest s) := by
  have haccept := step_accepts hp hh hr
  have hserve := step_serving (accept_serving r { s with host := rest }) hrest
  simp only [runSteps, haccept, hserve]
  rfl

/-- With a request to come, the next move is no reset. -/
theorem requests_append_ne_reset (rs : List Request) (r : Request) (rest rest' : List HostMove) :
    (rs ++ [r]).map HostMove.request ++ rest ≠ .reset :: rest' := by
  cases rs <;> simp

end Sys2Proof.Machine

open Sys2Proof.Machine

/-- Settles O50, by induction on the requests before the last: the first is answered in two steps, and what it leaves
is again a state in IDLE with the same parameters, from which the others are served. -/
theorem requestsAreServedIndependently : Obligations.RequestsAreServedIndependently := by
  intro rs r rest
  induction rs with
  | nil =>
    intro s hp hh hrest hpres
    have hr : r.presentable s.config = true := hpres r (by simp)
    exact ⟨answered r rest s, runSteps_two_of_request hp hh hr hrest, answered_phase r rest s,
      answered_latched r rest s, answered_host r rest s, answered_config r rest s, answered_input r rest s,
      answered_response r rest s⟩
  | cons q rs ih =>
    intro s hp hh hrest hpres
    have hq : q.presentable s.config = true := hpres q (by simp)
    have hfirst := runSteps_two_of_request hp hh hq (requests_append_ne_reset rs r rest)
    have hlen : 2 * ((q :: rs).length + 1) = 2 + 2 * (rs.length + 1) := by simp only [List.length_cons]; omega
    rw [hlen, runSteps_add _ hfirst]
    exact ih _ (answered_phase q _ s) (answered_host q _ s) hrest fun p hmem => hpres p (List.mem_cons_of_mem q hmem)
end

section
/-! PROOF. The two spaces: reads of IN, writes of OUT, and the byte order of an output record (20_memory.md R41, R42, R44,
R45, R49). -/

namespace Sys2Proof.Machine

theorem memWrite_ge {s : State} {a : Nat} (v : Byte) (h : 2 * pixelCount s.input.length ≤ a) :
    memWrite a v s = .error (.outWriteOutOfRange a) :=
  if_neg (Nat.not_lt_of_le h)

/-- Giving a response changes no byte of IN (R49). -/
@[simp] theorem memRead_respond (st : Status) (bytes : List Byte) (s : State) (a : Nat) :
    memRead (respond st bytes s) a = memRead s a := rfl

/-- A command that answers a next state has given a response, and has done nothing else. -/
theorem exec_next {i : Instr} {s t : State} (h : exec i s = .next t) : ∃ st bytes, t = respond st bytes s := by
  rw [exec_eq_serve] at h
  obtain ⟨cmd, outCap, hs⟩ := serving_of_serve_next h
  rw [serve_eq _ _ hs] at h
  exact ⟨_, _, (Host.Outcome.next.inj h).symm⟩

/-- The two bytes of a sample stand in its two halves, the upper one first (R87). -/
theorem outputBytes_append (p : Sample) : (outputBytes p).1 ++ (outputBytes p).2 = p := by
  refine BitVec.eq_of_getLsbD_eq fun i hi => ?_
  rw [two_bytes_getLsbD]
  by_cases h8 : i < 8
  · simp [outputBytes, h8]
  · have hbound : i - 8 ≤ 7 := by omega
    have hindex : 8 + (i - 8) = i := by omega
    simp [outputBytes, h8, hbound, hindex]

/-- The pixel of a record whose three bytes are known. -/
theorem pixelOf_eq (src dst : ChannelOrder) {input : List Byte} {i : Nat} {b0 b1 b2 : Byte}
    (h0 : input[3 * i]? = some b0) (h1 : input[3 * i + 1]? = some b1) (h2 : input[3 * i + 2]? = some b2) :
    pixelOf src dst input i = pixel b0 b1 b2 src dst := by
  simp [pixelOf, recordByte, h0, h1, h2]

/-- The in-order map at an index of OUT. -/
theorem pixelMap_getElem? (src dst : ChannelOrder) {input : List Byte} {a : Nat} (h : a < 2 * (input.length / 3)) :
    (pixelMap src dst input)[a]? = some (outByte src dst input a) := by
  rw [pixelMap_eq, pixelCount, List.getElem?_map, List.getElem?_range h, Option.map_some]

/-- The in-order map holds the two bytes of pixel `i` at `2i` and `2i + 1` (R96). -/
theorem pixelMap_record (src dst : ChannelOrder) {input : List Byte} {i : Nat} {b0 b1 b2 : Byte}
    (h0 : input[3 * i]? = some b0) (h1 : input[3 * i + 1]? = some b1) (h2 : input[3 * i + 2]? = some b2) :
    (pixelMap src dst input)[2 * i]? = some (pixel b0 b1 b2 src dst).1 ∧
      (pixelMap src dst input)[2 * i + 1]? = some (pixel b0 b1 b2 src dst).2 := by
  obtain ⟨hlen, -⟩ := List.getElem?_eq_some_iff.1 h2
  rw [← pixelOf_eq src dst h0 h1 h2, pixelMap_getElem? src dst (by omega), pixelMap_getElem? src dst (by omega)]
  have heven : 2 * i % 2 = 0 ∧ 2 * i / 2 = i := by omega
  have hodd : (2 * i + 1) % 2 = 1 ∧ (2 * i + 1) / 2 = i := by omega
  simp [outByte, heven, hodd]

/-- The bits of a command word made of two valid tags: the reserved ones are clear, the others name the tags (R62, R64). -/
theorem cmdOfCodes_bits (src dst : ChannelOrder) :
    (cmdOfCodes src.code dst.code).getLsbD 1 = false ∧ (cmdOfCodes src.code dst.code).getLsbD 3 = false ∧
      orderOfBit ((cmdOfCodes src.code dst.code).getLsbD 0) = src ∧
      orderOfBit ((cmdOfCodes src.code dst.code).getLsbD 2) = dst := by
  cases src <;> cases dst <;> decide

/-- The answer to a request with valid tags whose length and capacity are in order. -/
theorem answer_ok (src dst : ChannelOrder) {s : State} {outCap : Nat} (hlen : LengthOk s)
    (hcap : 2 * (s.input.length / 3) ≤ outCap) :
    answer s.config.lenMultiple (cmdOfCodes src.code dst.code) s.input outCap =
      ⟨.ok, pixelMap src dst s.input⟩ := by
  obtain ⟨hthree, hmultiple⟩ := hlen
  obtain ⟨hsrc, hdst, hsrcOrder, hdstOrder⟩ := cmdOfCodes_bits src dst
  unfold answer
  rw [if_neg (by simp [hthree, hmultiple]), if_neg (by rw [hsrc, hdst]; decide), if_neg (Nat.not_lt_of_le hcap),
    hsrcOrder, hdstOrder]

/-- From every serving state the next step ends the request with the answer of the spec. -/
theorem step_serving_endsWith {s : State} {cmd : CmdWord} {outCap : Nat} (h : Serving s cmd outCap) (hr : NoReset s) :
    EndsWith (step s) s (answer s.config.lenMultiple cmd s.input outCap) := by
  rw [step_serving h hr]
  exact respond_endsWith _ _ s

end Sys2Proof.Machine

open Sys2Proof.Machine

/-- Settles O14: below `2n` the storage is the old one with the byte written, at `2n` and above the write faults. -/
theorem writeOfOutputFrame : Obligations.WriteOfOutputFrame := by
  intro s a v
  constructor
  · intro ha
    refine ⟨s.out.write a v, memWrite_lt v ha, ?_, fun c hc => ?_, fun hw => Memory.write_wf hw a v⟩
    · rw [Memory.read_write, if_pos rfl]
    · rw [Memory.read_write, if_neg hc]
  · exact memWrite_ge v

/-- Settles O22: a command's next state is a response on the state it ran in, so the frame is that of a response. -/
theorem commandFrame : Obligations.CommandFrame := by
  intro i s t h
  obtain ⟨st, bytes, rfl⟩ := exec_next h
  exact ⟨⟨respond_config st bytes s, respond_input st bytes s, respond_host st bytes s, respond_draw st bytes s⟩,
    memRead_respond st bytes s, ⟨respond_phase st bytes s, respond_latched st bytes s, respond_out st bytes s⟩,
    _, respond_response st bytes s⟩

/-- Settles O32: the answer is the in-order map, which holds PIXEL's two bytes for each pixel, and PIXEL ends in the
big-endian output stage. -/
theorem outputIsBigEndian : Obligations.OutputIsBigEndian := by
  intro s src dst outCap i b0 b1 b2 hs hr hlen hcap h0 h1 h2
  have hend := step_serving_endsWith hs hr
  rw [answer_ok src dst hlen hcap] at hend
  exact ⟨_, hend, pixelMap_record src dst h0 h1 h2⟩

/-- Settles O10: big-endian the halves of P stand where they were, little-endian they are exchanged by definition. -/
theorem outputPairReadsBackAsSample : Obligations.OutputPairReadsBackAsSample :=
  fun p => ⟨outputBytes_append p, rfl⟩

/-- Settles O13: the two cases of a read of IN. -/
theorem readsOfInputInAndOutOfRange : Obligations.ReadsOfInputInAndOutOfRange :=
  fun _ _ => ⟨memRead_lt, memRead_ge⟩
end

section
/-! PROOF. The decoder and the encoder: a word decodes to a command exactly when it is that command's word, and the
words of commands are those with bits 1 and 3 clear (30_encoding.md R61, R62, R64, R68). -/

namespace Sys2Proof

@[simp] theorem srcField_cmdOfCodes : ∀ src dst : TagCode, srcField (cmdOfCodes src dst) = src := by decide

@[simp] theorem dstField_cmdOfCodes : ∀ src dst : TagCode, dstField (cmdOfCodes src dst) = dst := by decide

/-- A word is its two fields and nothing more (R61). -/
@[simp] theorem cmdOfCodes_fields : ∀ cmd : CmdWord, cmdOfCodes (srcField cmd) (dstField cmd) = cmd := by decide

@[simp] theorem orderOfCode_code (o : ChannelOrder) : orderOfCode o.code = some o := by
  cases o <;> rfl

theorem code_of_orderOfCode {t : TagCode} {o : ChannelOrder} (h : orderOfCode t = some o) : t = o.code := by
  unfold orderOfCode at h
  split at h
  next ht => cases h; exact ht
  next =>
    split at h
    next ht => cases h; exact ht
    next => cases h

@[simp] theorem instrOfOrders_source_target (i : Instr) : instrOfOrders i.source i.target = i := by
  cases i <;> rfl

theorem encode_instrOfOrders (src dst : ChannelOrder) :
    encode (instrOfOrders src dst) = cmdOfCodes src.code dst.code := by
  cases src <;> cases dst <;> rfl

@[simp] theorem srcField_encode (i : Instr) : srcField (encode i) = i.source.code := srcField_cmdOfCodes _ _

@[simp] theorem dstField_encode (i : Instr) : dstField (encode i) = i.target.code := dstField_cmdOfCodes _ _

@[simp] theorem decode_encode (i : Instr) : decode (encode i) = .instr i := by
  simp [decode]

/-- The word of a command is the only one that decodes to it. -/
theorem eq_encode_of_decode {cmd : CmdWord} {i : Instr} (h : decode cmd = .instr i) : cmd = encode i := by
  unfold decode at h
  split at h
  next src dst hsrc hdst =>
    cases h
    rw [encode_instrOfOrders, ← code_of_orderOfCode hsrc, ← code_of_orderOfCode hdst, cmdOfCodes_fields]
  all_goals cases h

theorem decode_eq_instr_iff {cmd : CmdWord} {i : Instr} : decode cmd = .instr i ↔ cmd = encode i :=
  ⟨eq_encode_of_decode, fun h => h ▸ decode_encode i⟩

/-- The mask of R64 tests the upper bit of each field. -/
theorem cmdValid_eq_bits : ∀ cmd : CmdWord, cmdValid cmd = (!cmd.getLsbD 1 && !cmd.getLsbD 3) := by decide

theorem cmdValid_encode (i : Instr) : cmdValid (encode i) = true := by
  cases i <;> rfl

/-- A valid word is made of the two tags that its bits 0 and 2 name (R62). -/
theorem cmdOfCodes_of_cmdValid : ∀ cmd : CmdWord, cmdValid cmd = true →
    cmdOfCodes (Machine.orderOfBit (cmd.getLsbD 0)).code (Machine.orderOfBit (cmd.getLsbD 2)).code = cmd := by decide

/-- The words that decode to a command are the valid ones (R64). -/
theorem exists_decode_iff_cmdValid (cmd : CmdWord) : (∃ i, decode cmd = .instr i) ↔ cmdValid cmd = true := by
  constructor
  · rintro ⟨i, hi⟩
    rw [eq_encode_of_decode hi]
    exact cmdValid_encode i
  · intro hv
    refine ⟨instrOfOrders (Machine.orderOfBit (cmd.getLsbD 0)) (Machine.orderOfBit (cmd.getLsbD 2)),
      decode_eq_instr_iff.mpr ?_⟩
    rw [encode_instrOfOrders, cmdOfCodes_of_cmdValid cmd hv]

/-- A row of the opcode table reads as a command exactly when its number is that of the command's word. -/
theorem decodeTableWord_eq_some_iff {nbits w : Nat} {i : Instr} :
    decodeTableWord nbits w = some i ↔ w % 2 ^ nbits = (encode i).toNat := by
  unfold decodeTableWord
  split
  next hlt =>
    have hword : BitVec.ofNat 4 (w % 2 ^ nbits) = encode i ↔ w % 2 ^ nbits = (encode i).toNat := by
      rw [← BitVec.toNat_inj, BitVec.toNat_ofNat, Nat.mod_eq_of_lt hlt]
    rw [← hword, ← decode_eq_instr_iff]
    cases decode (BitVec.ofNat 4 (w % 2 ^ nbits)) <;> simp
  next hge =>
    have hi := (encode i).isLt
    constructor
    · intro h
      cases h
    · omega

theorem decodeTableWord_eq_none_iff {nbits w : Nat} :
    decodeTableWord nbits w = none ↔ ∀ i, w % 2 ^ nbits ≠ (encode i).toNat := by
  simp only [Option.eq_none_iff_forall_ne_some, ne_eq, decodeTableWord_eq_some_iff]

end Sys2Proof

open Sys2Proof

/-- Settles O1: the encoder's two fields are the codes of the command's tags, and a word is determined by its fields. -/
theorem encodeDecodeAgree : Obligations.EncodeDecodeAgree :=
  fun i => ⟨decode_encode i, fun _ => eq_encode_of_decode⟩

/-- Settles O2: the four words are the words of the four commands, no other word is one, and the valid words are just
these. -/
theorem opcodeMapOfSixteenWords : Obligations.OpcodeMapOfSixteenWords := by
  refine ⟨decode_encode .convertRgbRgb, decode_encode .convertBgrRgb, decode_encode .convertRgbBgr,
    decode_encode .convertBgrBgr, ?_, ?_⟩
  · intro cmd h0 h1 h4 h5 i hi
    have hcmd := eq_encode_of_decode hi
    cases i with
    | convertRgbRgb => exact h0 hcmd
    | convertBgrRgb => exact h1 hcmd
    | convertRgbBgr => exact h4 hcmd
    | convertBgrBgr => exact h5 hcmd
  · intro cmd
    rw [exists_decode_iff_cmdValid, cmdValid, beq_iff_eq]

/-- Settles O3: the first four numbers are those of the four commands' words, the last three are no command's. -/
theorem tableWordsDecode : Obligations.TableWordsDecode := by
  refine ⟨decodeTableWord_eq_some_iff.mpr rfl, decodeTableWord_eq_some_iff.mpr rfl,
    decodeTableWord_eq_some_iff.mpr rfl, decodeTableWord_eq_some_iff.mpr rfl, decodeTableWord_eq_none_iff.mpr ?_,
    decodeTableWord_eq_none_iff.mpr ?_, decodeTableWord_eq_none_iff.mpr ?_⟩
  all_goals intro i; cases i <;> decide
end

section
/-! PROOF. The assembler's view of a word (30_encoding.md R68 to R72). -/

namespace Sys2Proof

/-- A printed tag stands for the code it was printed from, whether by name or by number (R69, R72). -/
@[simp] theorem printedTag_code (t : TagCode) : (printedTag t).code = t := by
  unfold printedTag
  split
  next h => exact (code_of_orderOfCode h).symm
  next h => exact (code_of_orderOfCode h).symm
  next => rfl

theorem assemble_disassemble (cmd : CmdWord) : assemble (disassemble cmd).src (disassemble cmd).dst = cmd := by
  simp [assemble, disassemble]

theorem disassemble_reserved_iff (cmd : CmdWord) :
    (disassemble cmd).reserved = true ↔ (cmd.getLsbD 1 = true ∨ cmd.getLsbD 3 = true) := by
  rw [disassemble, cmdValid_eq_bits, Bool.not_and, Bool.not_not, Bool.not_not, Bool.or_eq_true]

end Sys2Proof

open Sys2Proof

/-- Settles O4: each printed tag keeps its field's code, and the mark is the negation of the bit test of R64. -/
theorem disassembleAssembleRoundTrip : Obligations.DisassembleAssembleRoundTrip :=
  fun cmd => ⟨assemble_disassemble cmd, disassemble_reserved_iff cmd⟩

/-- Settles O5: the expansion is the definition, and the four words are computed from it. -/
theorem convertCsExpands : Obligations.ConvertCsExpands :=
  ⟨fun _ => rfl, rfl, rfl, rfl, rfl⟩
end

section
/-! PROOF. A step serves the latched word with its own two fields, which is what running its command does
(30_encoding.md R64, R65; logs 8 and 10). -/

namespace Sys2Proof.Machine

theorem step_eq_serve {s : State} {cmd : CmdWord} {outCap : Nat} (h : Serving s cmd outCap) (hr : NoReset s) :
    step s = serve (srcField cmd) (dstField cmd) s := by
  rw [step_serving h hr, serve_eq _ _ h, serveResponse_eq_answer]

theorem exec_of_decode {cmd : CmdWord} {i : Instr} (h : decode cmd = .instr i) (s : State) :
    exec i s = serve (srcField cmd) (dstField cmd) s := by
  rw [exec_eq_serve, eq_encode_of_decode h, srcField_encode, dstField_encode]

end Sys2Proof.Machine

open Sys2Proof.Machine

/-- Settles O39: a command serves the request with the fields of its own word, and `execReserved` with those of the word
it is given. -/
theorem stepRunsTheDecodedCommand : Obligations.StepRunsTheDecodedCommand := by
  intro s cmd outCap hs hr
  constructor
  · intro i hi
    exact (step_eq_serve hs hr).trans (exec_of_decode hi s).symm
  · intro _
    exact step_eq_serve hs hr
end

section
/-! PROOF. The datapath of one pixel: extractor, quantizer and packer in field form and in mask-and-shift form
(40_convert.md R82 to R88, R94, R106). -/

namespace Sys2Proof

/-- The bits of a byte from bit `k` up are its floor division by `2 ^ k` (R83). -/
theorem extractLsb_top_toNat (x : Byte) (k : Nat) : (x.extractLsb 7 k).toNat = x.toNat / 2 ^ k := by
  rw [BitVec.extractLsb_toNat, Nat.shiftRight_eq_div_pow]
  refine Nat.mod_eq_of_lt (Nat.div_lt_of_lt_mul ?_)
  calc x.toNat < 2 ^ 8 := x.isLt
    _ ≤ 2 ^ (k + (7 - k + 1)) := Nat.pow_le_pow_right (by decide) (by omega)
    _ = 2 ^ k * 2 ^ (7 - k + 1) := Nat.pow_add 2 k _

section Sample
variable (x : BitVec 5) (y : BitVec 6) (z : BitVec 5)

/-- The top field of a 5/6/5 sample reads back (R85, R86). -/
theorem sample_top : (x ++ y ++ z : Sample).extractLsb 15 11 = x :=
  (BitVec.extractLsb'_append_eq_of_le (by decide)).trans BitVec.extractLsb'_append_eq_left

theorem sample_middle : (x ++ y ++ z : Sample).extractLsb 10 5 = y :=
  (BitVec.extractLsb'_append_eq_of_le (by decide)).trans BitVec.extractLsb'_append_eq_right

theorem sample_low : (x ++ y ++ z : Sample).extractLsb 4 0 = z :=
  BitVec.extractLsb'_append_eq_right

end Sample

/-- Masking with ones from bit `k` up keeps just those bits. -/
theorem mask_getLsbD (x : Byte) (k i : Nat) :
    (x &&& BitVec.allOnes 8 <<< k).getLsbD i = (decide (k ≤ i) && x.getLsbD i) := by
  rw [BitVec.getLsbD_and, BitVec.getLsbD_shiftLeft, BitVec.getLsbD_allOnes]
  by_cases hi : i < 8
  · rw [decide_eq_true hi, decide_eq_true (by omega : i - k < 8), Bool.true_and, Bool.and_true,
      Bool.and_comm, ← decide_not, decide_eq_decide.mpr Nat.not_lt]
  · rw [BitVec.getLsbD_of_ge x i (by omega), Bool.false_and, Bool.and_false]

theorem mask_shiftLeft_getLsbD (x : Byte) (k n : Nat) {i : Nat} (hi : i < 16) :
    ((x &&& BitVec.allOnes 8 <<< k).setWidth 16 <<< n).getLsbD i = (decide (k + n ≤ i) && x.getLsbD (i - n)) := by
  rw [BitVec.getLsbD_shiftLeft, BitVec.getLsbD_setWidth, mask_getLsbD, decide_eq_true hi,
    decide_eq_true (by omega : i - n < 16), Bool.true_and, Bool.true_and, ← decide_not, ← Bool.and_assoc,
    ← Bool.decide_and]
  congr 2
  exact propext (by omega)

theorem mask_shiftRight_getLsbD (x : Byte) (k i : Nat) :
    ((x &&& BitVec.allOnes 8 <<< k).setWidth 16 >>> k).getLsbD i = x.getLsbD (k + i) := by
  rw [BitVec.getLsbD_ushiftRight, BitVec.getLsbD_setWidth, mask_getLsbD, decide_eq_true (Nat.le_add_right k i),
    Bool.true_and]
  by_cases hi : k + i < 16
  · rw [decide_eq_true hi, Bool.true_and]
  · rw [decide_eq_false hi, Bool.false_and, BitVec.getLsbD_of_ge x _ (by omega)]

/-- The mask-and-shift form of a sample has the bits of its field form (R84). -/
theorem masked_sample (x y z : Byte) :
    (x &&& 0xF8#8).setWidth 16 <<< 8 ||| (y &&& 0xFC#8).setWidth 16 <<< 3 ||| (z &&& 0xF8#8).setWidth 16 >>> 3 =
      (x.extractLsb 7 3 ++ y.extractLsb 7 2 ++ z.extractLsb 7 3 : Sample) := by
  have hfive : 0xF8#8 = BitVec.allOnes 8 <<< 3 := rfl
  have hsix : 0xFC#8 = BitVec.allOnes 8 <<< 2 := rfl
  refine BitVec.eq_of_getLsbD_eq fun i hi => ?_
  rw [sample_getLsbD, hfive, hsix, BitVec.getLsbD_or, BitVec.getLsbD_or, mask_shiftLeft_getLsbD x 3 8 hi,
    mask_shiftLeft_getLsbD y 2 3 hi, mask_shiftRight_getLsbD]
  simp only [BitVec.getLsbD_extractLsb]
  by_cases h5 : i < 5
  · have h11 : ¬ 11 ≤ i := by omega
    simp [h5, h11]
  · have hz : z.getLsbD (3 + i) = false := BitVec.getLsbD_of_ge z _ (by omega)
    by_cases h11 : i < 11
    · have hindex : 2 + (i - 5) = i - 3 := by omega
      have hbound : i - 5 < 6 := by omega
      simp [hz, h5, h11, hindex, hbound, Nat.not_le_of_lt h11, Nat.le_of_not_lt h5]
    · have hy : y.getLsbD (i - 3) = false := BitVec.getLsbD_of_ge y _ (by omega)
      have hindex : 3 + (i - 11) = i - 8 := by omega
      have hbound : i - 11 < 5 := by omega
      simp [hz, hy, h5, h11, hindex, hbound, Nat.le_of_not_lt h11]

/-- The two bytes of a sample whose fields are the upper bits of three bytes (R87, R89 to R92). -/
theorem sample_outputBytes (x y z : Byte) :
    Machine.outputBytes (x.extractLsb 7 3 ++ y.extractLsb 7 2 ++ z.extractLsb 7 3) =
      (x.extractLsb 7 3 ++ y.extractLsb 7 5, y.extractLsb 4 2 ++ z.extractLsb 7 3) := by
  refine Prod.ext (BitVec.eq_of_getLsbD_eq fun i hi => ?_) (BitVec.eq_of_getLsbD_eq fun i hi => ?_)
  · rw [Machine.outputBytes, BitVec.getLsbD_extractLsb, sample_getLsbD, byte_five_three_getLsbD]
    have hsplit : 8 + i < 11 ↔ i < 3 := by omega
    simp only [BitVec.getLsbD_extractLsb, hi, hsplit, if_neg (by omega : ¬ 8 + i < 5), decide_true, Bool.true_and]
    by_cases h3 : i < 3
    · have hindex : 2 + (8 + i - 5) = 5 + i := by omega
      have hmiddle : 8 + i - 5 < 7 - 2 + 1 := by omega
      rw [if_pos h3, if_pos h3, hindex, decide_eq_true hmiddle, decide_eq_true h3]
    · have hindex : 8 + i - 11 = i - 3 := by omega
      rw [if_neg h3, if_neg h3, hindex]
  · rw [Machine.outputBytes, BitVec.getLsbD_extractLsb, sample_getLsbD, byte_three_five_getLsbD, Nat.zero_add]
    simp only [BitVec.getLsbD_extractLsb, hi, decide_true, Bool.true_and, if_pos (by omega : i < 11)]
    by_cases h5 : i < 5
    · rw [if_pos h5, if_pos h5]
    · have hmiddle : i - 5 < 7 - 2 + 1 := by omega
      have hthree : i - 5 < 4 - 2 + 1 := by omega
      rw [if_neg h5, if_neg h5, decide_eq_true hmiddle, decide_eq_true hthree]

end Sys2Proof

namespace Sys2Proof.Machine

/-- A pixel of three equal bytes: neither tag matters, because red and blue are the same (R106). -/
theorem pack_gray (b : Byte) (src dst : ChannelOrder) :
    pack (quantize (extractChannels b b b src)) dst = pack (quantize ⟨b, b, b⟩) .rgb := by
  cases src <;> cases dst <;> rfl

/-- PIXEL reads the kept bits of its three bytes and no others (R94). -/
theorem pixel_congr {a0 a1 a2 b0 b1 b2 : Byte} (src dst : ChannelOrder)
    (h0 : a0.extractLsb 7 3 = b0.extractLsb 7 3) (h1 : a1.extractLsb 7 2 = b1.extractLsb 7 2)
    (h2 : a2.extractLsb 7 3 = b2.extractLsb 7 3) : pixel a0 a1 a2 src dst = pixel b0 b1 b2 src dst := by
  have hquantize : quantize (extractChannels a0 a1 a2 src) = quantize (extractChannels b0 b1 b2 src) := by
    cases src with
    | rgb => rw [extractChannels, extractChannels, quantize, quantize, h0, h1, h2]
    | bgr => rw [extractChannels, extractChannels, quantize, quantize, h0, h1, h2]
  rw [pixel, pixel, hquantize]

end Sys2Proof.Machine

open Sys2Proof Sys2Proof.Machine

/-- Settles O6: the two cases of the extractor. -/
theorem extractorSwapsRedAndBlue : Obligations.ExtractorSwapsRedAndBlue :=
  fun _ _ _ => ⟨rfl, rfl⟩

/-- Settles O7: each field is the upper bits of its channel. -/
theorem quantizeIsFloorDivision : Obligations.QuantizeIsFloorDivision :=
  fun c => ⟨extractLsb_top_toNat c.r 3, extractLsb_top_toNat c.g 2, extractLsb_top_toNat c.b 3⟩

/-- Settles O8: the two layouts are one form of three bytes, with red and blue exchanged. -/
theorem maskedFormEqualsFieldForm : Obligations.MaskedFormEqualsFieldForm := by
  intro c dst
  cases dst with
  | rgb => exact masked_sample c.r c.g c.b
  | bgr => exact masked_sample c.b c.g c.r

/-- Settles O9: a sample's three fields read back, in either layout. -/
theorem packerFieldPositions : Obligations.PackerFieldPositions :=
  fun q => ⟨sample_top q.r5 q.g6 q.b5, sample_middle q.r5 q.g6 q.b5, sample_low q.r5 q.g6 q.b5,
    sample_top q.b5 q.g6 q.r5, sample_middle q.b5 q.g6 q.r5, sample_low q.b5 q.g6 q.r5⟩

/-- Settles O11: white and black are gray, and the one sample of each is computed. -/
theorem whiteAndBlackPixels : Obligations.WhiteAndBlackPixels := by
  intro src dst
  simp only [pixel, pack_gray]
  decide

/-- Settles O12: PIXEL's congruence in the kept bits. -/
theorem pixelIgnoresDroppedBits : Obligations.PixelIgnoresDroppedBits :=
  fun _ _ _ _ _ _ src dst => pixel_congr src dst
end

section
/-! PROOF. The in-order map and the pixel loop: which pixels decide the output, and that every order of visiting them
gives it (40_convert.md R93 to R96, R103). -/

namespace Sys2Proof.Machine

/-- The in-order map is decided by the pixels: pixel by pixel equal inputs and tags give equal outputs. -/
theorem pixelMap_congr {src dst src' dst' : ChannelOrder} {x y : List Byte} (hlen : x.length = y.length)
    (h : ∀ i < x.length / 3, pixelOf src dst x i = pixelOf src' dst' y i) :
    pixelMap src dst x = pixelMap src' dst' y := by
  rw [pixelMap_eq, pixelMap_eq, ← hlen, pixelCount]
  refine List.map_congr_left fun a ha => ?_
  have ha := List.mem_range.mp ha
  rw [outByte, outByte, h (a / 2) (by omega)]

end Sys2Proof.Machine

open Sys2Proof.Machine

/-- Settles O16: pixel `i` lies inside the input because its third byte does, and then only its record is written. -/
theorem pixelWritesOnlyItsRecord : Obligations.PixelWritesOnlyItsRecord := by
  intro src dst s i b0 b1 b2 h0 h1 h2
  obtain ⟨hlen, -⟩ := List.getElem?_eq_some_iff.mp h2
  have hi : i < pixelCount s.input.length := by unfold pixelCount; omega
  refine ⟨_, pixelStep_lt src dst hi, ?_, ?_, fun a ha ha' => ?_⟩
  · rw [read_writePixel, if_pos (by omega), if_pos (by omega), pixelOf_eq src dst h0 h1 h2]
  · rw [read_writePixel, if_pos (by omega), if_neg (by omega), pixelOf_eq src dst h0 h1 h2]
  · rw [read_writePixel, if_neg (by omega)]

/-- Settles O17: the loop writes the records of exactly the listed pixels, and a permutation of all pixels lists
each. -/
theorem everyVisitingOrderGivesInOrderMap : Obligations.EveryVisitingOrderGivesInOrderMap := by
  intro src dst s order hperm
  have hmem : ∀ i, i ∈ order ↔ i < s.input.length / 3 := fun i => hperm.mem_iff.trans List.mem_range
  obtain ⟨m, hloop, -, hread⟩ := pixelLoop_spec src dst order { s with out := Memory.empty } fun i => (hmem i).mp
  refine ⟨m, hloop, ?_⟩
  rw [pixelMap_eq]
  refine collectOut_ok fun a ha => ?_
  have ha := List.mem_range.mp ha
  rw [hread a, if_pos ((hmem _).mpr (by omega))]
end

section
/-! PROOF. The answer of R80, case by case, and the laws of responses that follow from it (40_convert.md R94, R97, R98,
R105, R107; 60_exceptions.md R123, R126). -/

namespace Sys2Proof.Machine

section Answer
variable {s : State} {cmd : CmdWord} {outCap : Nat}

/-- The length check comes first, whatever the command word and the capacity (R123, R126). -/
theorem answer_malformed (h : ¬ LengthOk s) :
    answer s.config.lenMultiple cmd s.input outCap = ⟨.malformedInput, []⟩ :=
  if_pos (not_and_or.mp h)

theorem answer_reserved (hlen : LengthOk s) (htag : cmd.getLsbD 1 = true ∨ cmd.getLsbD 3 = true) :
    answer s.config.lenMultiple cmd s.input outCap = ⟨.invalidChannelOrder, []⟩ :=
  (if_neg (not_or_intro (not_not_intro hlen.1) (not_not_intro hlen.2))).trans (if_pos htag)

theorem answer_overCapacity (src dst : ChannelOrder) (hlen : LengthOk s) (hcap : outCap < 2 * (s.input.length / 3)) :
    answer s.config.lenMultiple (cmdOfCodes src.code dst.code) s.input outCap = ⟨.allocationFailure, []⟩ := by
  obtain ⟨hthree, hmultiple⟩ := hlen
  obtain ⟨hsrc, hdst, -, -⟩ := cmdOfCodes_bits src dst
  unfold answer
  rw [if_neg (by simp [hthree, hmultiple]), if_neg (by rw [hsrc, hdst]; decide), if_pos hcap]

end Answer

/-- No check after the length check answers MalformedInput. -/
theorem answer_status_eq_malformed_iff {m : LenMultiple} {cmd : CmdWord} {input : List Byte} {outCap : Nat} :
    (answer m cmd input outCap).status = .malformedInput ↔ input.length % 3 ≠ 0 ∨ input.length % m.value ≠ 0 := by
  unfold answer
  split
  next hlen => exact iff_of_true rfl hlen
  next hlen =>
    refine iff_of_false ?_ hlen
    split
    · decide
    · split
      · decide
      · simp

/-- The input bytes reach the answer through the in-order map alone. -/
theorem answer_congr {m : LenMultiple} {x y : List Byte} (cmd : CmdWord) (outCap : Nat) (hlen : x.length = y.length)
    (hmap : ∀ src dst, pixelMap src dst x = pixelMap src dst y) : answer m cmd x outCap = answer m cmd y outCap := by
  rw [answer, answer, hlen, hmap]

/-- Where two inputs agree on the kept bits, so do the bytes of their records: the middle byte of a record is the one
whose index is 1 modulo 3. -/
theorem recordByte_kept {x y : List Byte} (h : SameKeptBits x y) {i k : Nat} (hk : 3 * i + k < x.length) (hk3 : k < 3) :
    (k = 1 → (recordByte x i k).extractLsb 7 2 = (recordByte y i k).extractLsb 7 2) ∧
      (k ≠ 1 → (recordByte x i k).extractLsb 7 3 = (recordByte y i k).extractLsb 7 3) := by
  obtain ⟨hlen, hbits⟩ := h
  have hx : x[3 * i + k]? = some (recordByte x i k) := by simp [recordByte, hk]
  have hy : y[3 * i + k]? = some (recordByte y i k) := by simp [recordByte, hlen ▸ hk]
  have hmod : (3 * i + k) % 3 = k := by omega
  have hkept := hbits _ _ _ hx hy
  rw [hmod] at hkept
  exact hkept

theorem pixelMap_congr_of_sameKeptBits {x y : List Byte} (src dst : ChannelOrder) (h : SameKeptBits x y) :
    pixelMap src dst x = pixelMap src dst y := by
  refine pixelMap_congr h.1 fun i hi => ?_
  obtain ⟨-, h0⟩ := recordByte_kept h (i := i) (k := 0) (by omega) (by omega)
  obtain ⟨h1, -⟩ := recordByte_kept h (i := i) (k := 1) (by omega) (by omega)
  obtain ⟨-, h2⟩ := recordByte_kept h (i := i) (k := 2) (by omega) (by omega)
  exact pixel_congr src dst (h0 (by decide)) (h1 rfl) (h2 (by decide))

/-- The empty input passes the length check at both settings of LEN_MULTIPLE. -/
theorem lengthOk_of_input_nil {s : State} (h : s.input = []) : LengthOk s := by
  simp [LengthOk, h]

end Sys2Proof.Machine

open Sys2Proof Sys2Proof.Machine

/-- Settles O25: the machine's own checks, loop and memories give the answer of R80. -/
theorem servedRequestGetsTheAnswer : Obligations.ServedRequestGetsTheAnswer :=
  fun _ _ _ hs hr => step_serving_endsWith hs hr

/-- Settles O26: the answer is MalformedInput exactly when its first check fails. -/
theorem malformedInputIffLengthFails : Obligations.MalformedInputIffLengthFails :=
  fun _ _ _ hs hr => ⟨_, step_serving_endsWith hs hr, answer_status_eq_malformed_iff⟩

/-- Settles O31: an OK answer is an in-order map of `2n` bytes, every other answer is without output. -/
theorem sizeLaw : Obligations.SizeLaw := by
  intro s cmd outCap hs hr
  refine ⟨_, step_serving_endsWith hs hr, fun hok => ?_, fun herr => ?_⟩
  · exact (answer_ok_size (congrArg (Response.mk · _) hok)).2
  · rw [answer_error_empty herr, List.length_nil]

/-- Settles O33: input bytes reach the answer as the pixels of the in-order map, and a pixel reads the kept
bits alone. -/
theorem droppedBitsDoNotReachTheOutput : Obligations.DroppedBitsDoNotReachTheOutput := by
  intro s s' cmd outCap hs hs' hr hr' hmultiple hkept
  have hanswer := answer_congr (m := s'.config.lenMultiple) cmd outCap hkept.1
    fun src dst => pixelMap_congr_of_sameKeptBits src dst hkept
  refine ⟨_, step_serving_endsWith hs hr, ?_⟩
  rw [hmultiple, hanswer]
  exact step_serving_endsWith hs' hr'

/-- Settles O35: the answer is a function of the request and of LEN_MULTIPLE. -/
theorem sameRequestSameResponse : Obligations.SameRequestSameResponse := by
  intro s s' cmd outCap hs hs' hr hr' hmultiple hinput
  refine ⟨_, step_serving_endsWith hs hr, ?_⟩
  rw [hmultiple, hinput]
  exact step_serving_endsWith hs' hr'

/-- Settles O37: the empty input passes the length check and needs no capacity, so the tags alone decide. -/
theorem emptyRequestAnswer : Obligations.EmptyRequestAnswer := by
  intro s cmd outCap hs hr hempty
  have hlen := lengthOk_of_input_nil hempty
  have hend := step_serving_endsWith hs hr
  constructor
  · intro hvalid
    rw [← cmdOfCodes_of_cmdValid cmd hvalid, answer_ok _ _ hlen (by simp [hempty]), hempty] at hend
    exact hend
  · intro hreserved
    rw [answer_reserved hlen (by simpa [cmdValid_eq_bits, or_iff_not_imp_left] using hreserved)] at hend
    exact hend
end

section
/-! PROOF. The commands: each answers a request as its own word does, and the tags matter only through the pixel they
give (40_convert.md R80, R89 to R93, R105). -/

namespace Sys2Proof.Machine

/-- Either there is no request in progress, or a command word and a capacity are being served. -/
theorem serving_of_request {s : State} (h : ¬ (s.phase = .idle ∨ s.latched = none)) :
    ∃ cmd outCap, Serving s cmd outCap := by
  obtain ⟨hphase, hlatched⟩ := not_or.mp h
  obtain ⟨⟨cmd, outCap⟩, hl⟩ := Option.ne_none_iff_exists'.mp hlatched
  cases hp : s.phase with
  | idle => exact absurd hp hphase
  | busy => exact ⟨cmd, outCap, hp, hl⟩

theorem exec_noRequest (i : Instr) {s : State} (h : s.phase = .idle ∨ s.latched = none) :
    exec i s = .fault .noRequest := by
  rw [exec_eq_serve, serve_noRequest _ _ h]

/-- A command gives the request in progress the answer to the command's own word. -/
theorem exec_serving (i : Instr) {s : State} {cmd : CmdWord} {outCap : Nat} (h : Serving s cmd outCap) :
    exec i s = .next (respond (answer s.config.lenMultiple (encode i) s.input outCap).status
      (answer s.config.lenMultiple (encode i) s.input outCap).out s) := by
  rw [← serveResponse_eq_answer, srcField_encode, dstField_encode, exec_eq_serve, serve_eq _ _ h]

theorem exec_endsWith (i : Instr) {s : State} {cmd : CmdWord} {outCap : Nat} (h : Serving s cmd outCap) :
    EndsWith (exec i s) s (answer s.config.lenMultiple (encode i) s.input outCap) := by
  rw [exec_serving i h]
  exact respond_endsWith _ _ s

/-- Two commands that give every record the same pixel are the same function of the state, errors and faults
included. -/
theorem exec_congr (i j : Instr)
    (h : ∀ b0 b1 b2, pixel b0 b1 b2 i.source i.target = pixel b0 b1 b2 j.source j.target) (s : State) :
    exec i s = exec j s := by
  by_cases hs : s.phase = .idle ∨ s.latched = none
  · rw [exec_noRequest i hs, exec_noRequest j hs]
  · obtain ⟨cmd, outCap, hserving⟩ := serving_of_request hs
    have hmap : pixelMap i.source i.target s.input = pixelMap j.source j.target s.input :=
      pixelMap_congr rfl fun _ _ => h _ _ _
    rw [exec_eq_serve, exec_eq_serve, serve_eq _ _ hserving, serve_eq _ _ hserving]
    simp only [serveResponse, orderOfCode_code, hmap]

/-- What a command means is settled by the pixel its tags give: the two bytes on completion, and the errors and the
frame of every command. -/
theorem variantMeans_of_pixel {i : Instr} {first second : Byte → Byte → Byte → Byte}
    (h : ∀ b0 b1 b2, pixel b0 b1 b2 i.source i.target = (first b0 b1 b2, second b0 b1 b2)) :
    VariantMeans i first second := by
  intro s cmd outCap hs
  have hend := exec_endsWith i hs
  rw [encode] at hend
  refine ⟨fun hlen hcap => ?_, fun hlen => ?_, fun hlen hcap => ?_⟩
  · rw [answer_ok i.source i.target hlen hcap] at hend
    refine ⟨_, hend, pixelMap_length _ _ _, fun k b0 b1 b2 h0 h1 h2 => ?_⟩
    have hrecord := pixelMap_record i.source i.target h0 h1 h2
    rw [h b0 b1 b2] at hrecord
    exact hrecord
  · rw [answer_malformed hlen] at hend
    exact hend
  · rw [answer_overCapacity i.source i.target hlen hcap] at hend
    exact hend

end Sys2Proof.Machine

open Sys2Proof Sys2Proof.Machine

/-- Settles O18. The sample is the closed form by definition, and its bytes are those of its two halves. -/
theorem convertRgbRgbResult : Obligations.ConvertRgbRgbResult :=
  ⟨fun _ _ _ => rfl, variantMeans_of_pixel fun b0 b1 b2 => sample_outputBytes b0 b1 b2⟩

/-- Settles O19, as O18 with the outer bytes exchanged by the packer. -/
theorem convertRgbBgrResult : Obligations.ConvertRgbBgrResult :=
  ⟨fun _ _ _ => rfl, variantMeans_of_pixel fun b0 b1 b2 => sample_outputBytes b2 b1 b0⟩

/-- Settles O20, as O18 with the outer bytes exchanged by the extractor. -/
theorem convertBgrRgbResult : Obligations.ConvertBgrRgbResult :=
  ⟨fun _ _ _ => rfl, variantMeans_of_pixel fun b0 b1 b2 => sample_outputBytes b2 b1 b0⟩

/-- Settles O21, as O18: the extractor and the packer exchange the outer bytes twice. -/
theorem convertBgrBgrResult : Obligations.ConvertBgrBgrResult :=
  ⟨fun _ _ _ => rfl, variantMeans_of_pixel fun b0 b1 b2 => sample_outputBytes b0 b1 b2⟩

/-- Settles O24: exchanging red and blue in the extractor and again in the packer changes no pixel. -/
theorem orderEquivalence : Obligations.OrderEquivalence :=
  fun s => ⟨exec_congr .convertRgbRgb .convertBgrBgr (fun _ _ _ => rfl) s,
    exec_congr .convertRgbBgr .convertBgrRgb (fun _ _ _ => rfl) s⟩

/-- Settles O38: a valid tag names the command with that tag twice, which is `CONVERT rgb, rgb` by O24; a reserved one
sets bit 1 of the word. -/
theorem convertCsMeaning : Obligations.ConvertCsMeaning := by
  intro s cs outCap hs hr
  have hword : assembleCs cs = cmdOfCodes cs.code cs.code := rfl
  rw [hword] at hs
  refine ⟨?_, fun hreserved => ?_⟩
  · rintro (hcode | hcode)
    · rw [hcode] at hs
      exact (step_eq_serve hs hr).trans (exec_of_decode (decode_encode .convertRgbRgb) s).symm
    · rw [hcode] at hs
      exact ((step_eq_serve hs hr).trans (exec_of_decode (decode_encode .convertBgrBgr) s).symm).trans
        (orderEquivalence s).1.symm
  · have hbit : (cmdOfCodes cs.code cs.code).getLsbD 1 = true := by
      rcases hreserved with hcode | hcode <;> rw [hcode] <;> decide
    have hend := step_serving_endsWith hs hr
    refine ⟨fun hlen => ?_, fun hlen => ?_⟩
    · rw [answer_reserved hlen (.inl hbit)] at hend
      exact hend
    · rw [answer_malformed hlen] at hend
      exact hend
end

section
/-! PROOF. Steps: what each kind of turn answers, that no step faults, and that lanes are not seen (10_state.md R21,
R34; 40_convert.md R96, R99, R103; 60_exceptions.md R133). -/

namespace Sys2Proof.Machine

section Turns
variable {s : State} {rest : List HostMove}

theorem step_idle_no_moves (hp : s.phase = .idle) (hh : s.host = []) : step s = .next s := by
  simp only [step, hp, hostTurn, hh]

theorem step_idle_wait (hp : s.phase = .idle) (hh : s.host = .wait :: rest) :
    step s = .next { s with host := rest } := by
  simp only [step, hp, hostTurn, hh]

/-- A reset is taken in either phase. -/
theorem step_reset (hh : s.host = .reset :: rest) : step s = .next (resetBlock { s with host := rest }) := by
  cases hp : s.phase with
  | idle => simp only [step, hp, hostTurn, hh]
  | busy => simp only [step, hp, blockTurn, hh]

/-- A step from a serving state ends the request, by a response or by reset, and leaves IN alone (R34, R99, R141). -/
theorem step_serving_ends {cmd : CmdWord} {outCap : Nat} (h : Serving s cmd outCap) :
    ∃ t, step s = .next t ∧ t.phase = .idle ∧ t.input = s.input := by
  by_cases hr : NoReset s
  · exact ⟨_, step_serving h hr, respond_phase _ _ s, respond_input _ _ s⟩
  · simp only [NoReset, not_forall, not_not] at hr
    obtain ⟨rest, hh⟩ := hr
    exact ⟨_, step_reset hh, resetBlock_phase _, resetBlock_input _⟩

/-- In IDLE a step answers, unless a request is presented that could not be. -/
theorem step_idle_answers_or_refuses (hp : s.phase = .idle) :
    (∃ t, step s = .next t) ∨ ∃ r rest, s.host = .request r :: rest ∧ r.presentable s.config = false ∧
      step s = .refused (.inputTooLong r.input.length) := by
  cases hh : s.host with
  | nil => exact .inl ⟨_, step_idle_no_moves hp hh⟩
  | cons move rest =>
    cases move with
    | request r =>
      by_cases hr : r.presentable s.config = true
      · exact .inl ⟨_, step_accepts hp hh hr⟩
      · exact .inr ⟨r, rest, rfl, Bool.eq_false_of_not_eq_true hr, step_refuses hp hh hr⟩
    | wait => exact .inl ⟨_, step_idle_wait hp hh⟩
    | reset => exact .inl ⟨_, step_reset hh⟩

end Turns

section Lanes
variable (s : State) (k : Nat)
@[simp] theorem withLanes_phase : (s.withLanes k).phase = s.phase := rfl

/-- Reset reads no parameter. -/
theorem resetBlock_withLanes : resetBlock (s.withLanes k) = (resetBlock s).withLanes k := by
  cases hp : s.phase <;> simp only [resetBlock, withLanes_phase, hp] <;> rfl

end Lanes

end Sys2Proof.Machine

open Sys2Proof.Machine

/-- Settles O36, by the cases of a step: only service reads the number of lanes, and its answer does not depend on it. -/
theorem lanesCannotBeObserved : Obligations.LanesCannotBeObserved := by
  intro s t k h
  rcases step_cases h with ⟨hp, hh, rfl⟩ | ⟨r, rest, hp, hh, hr, rfl⟩ | ⟨rest, hp, hh, rfl⟩ | ⟨rest, hh, rfl⟩ |
    ⟨cmd, outCap, hs, hr, rfl⟩
  · exact step_idle_no_moves (s := t.withLanes k) hp hh
  · exact step_accepts (s := s.withLanes k) hp hh hr
  · exact step_idle_wait (s := s.withLanes k) hp hh
  · rw [step_reset (s := s.withLanes k) hh, ← resetBlock_withLanes]
    rfl
  · exact step_serving (s := s.withLanes k) hs hr

/-- Settles O48: the accepted request is being served, and the step that ends it leaves IN alone. -/
theorem inputIsPreserved : Obligations.InputIsPreserved := by
  intro s r rest hp hh hr
  obtain ⟨u, hstep, hidle, hinput⟩ := step_serving_ends (accept_serving r { s with host := rest })
  exact ⟨_, u, step_accepts hp hh hr, accept_input r _, hstep, hidle, hinput⟩

/-- Settles O53: in BUSY the invariant has a request latched, which the step ends; in IDLE only an unpresentable request
is refused. -/
theorem noStepFaults : Obligations.NoStepFaults := by
  intro s hinv
  cases hp : s.phase with
  | idle =>
    refine (step_idle_answers_or_refuses hp).imp_right ?_
    rintro ⟨r, rest, hh, hr, hstep⟩
    exact ⟨r, rest, rfl, hh, hr, hstep⟩
  | busy =>
    obtain ⟨l, hl⟩ := Option.isSome_iff_exists.mp (hinv.latched_iff_busy.mp hp)
    obtain ⟨t, hstep, -⟩ := step_serving_ends (s := s) (cmd := l.cmd) (outCap := l.outCap) ⟨hp, hl⟩
    exact .inl ⟨t, hstep⟩
end

section
/-! PROOF. The STATUS of a request: it is decided from the length, the command word and the capacity, in the order of
the checks (60_exceptions.md R122, R124 to R126, R128). -/

namespace Sys2Proof.Machine

/-- The STATUS that the checks of 40_convert.md R80 give a request with `len` input bytes. -/
def checkedStatus (m : LenMultiple) (cmd : CmdWord) (len outCap : Nat) : Status :=
  if len % 3 ≠ 0 ∨ len % m.value ≠ 0 then .malformedInput
  else if cmd.getLsbD 1 = true ∨ cmd.getLsbD 3 = true then .invalidChannelOrder
  else if outCap < 2 * (len / 3) then .allocationFailure
  else .ok

/-- Of the input, only its length reaches the STATUS of the answer (R128). -/
theorem answer_status (m : LenMultiple) (cmd : CmdWord) (input : List Byte) (outCap : Nat) :
    (answer m cmd input outCap).status = checkedStatus m cmd input.length outCap := by
  simp only [answer, checkedStatus, apply_ite Response.status]

section CheckedStatus
variable {m : LenMultiple} {cmd : CmdWord} {len outCap : Nat}

/-- InvalidChannelOrder is the second check: the first has passed, and the third is not reached (R124). -/
theorem checkedStatus_eq_invalidChannelOrder_iff :
    checkedStatus m cmd len outCap = .invalidChannelOrder ↔
      (len % 3 = 0 ∧ len % m.value = 0) ∧ (cmd.getLsbD 1 = true ∨ cmd.getLsbD 3 = true) := by
  unfold checkedStatus
  split
  next hlen => exact iff_of_false (by decide) fun h => not_and_or.mpr hlen h.1
  next hlen =>
    split
    next htag => exact iff_of_true rfl ⟨by simpa using hlen, htag⟩
    next htag =>
      refine iff_of_false ?_ fun h => htag h.2
      split <;> decide

/-- AllocationFailure is the third check: the first two have passed (R125). -/
theorem checkedStatus_eq_allocationFailure_iff :
    checkedStatus m cmd len outCap = .allocationFailure ↔
      (len % 3 = 0 ∧ len % m.value = 0) ∧ cmd.getLsbD 1 = false ∧ cmd.getLsbD 3 = false ∧ 2 * (len / 3) > outCap := by
  unfold checkedStatus
  split
  next hlen => exact iff_of_false (by decide) fun h => not_and_or.mpr hlen h.1
  next hlen =>
    split
    next htag =>
      refine iff_of_false (by decide) ?_
      rintro ⟨-, hsrc, hdst, -⟩
      rw [hsrc, hdst] at htag
      exact absurd htag (by decide)
    next htag =>
      obtain ⟨hsrc, hdst⟩ : cmd.getLsbD 1 = false ∧ cmd.getLsbD 3 = false := by
        simpa only [not_or, Bool.not_eq_true] using htag
      split
      next hcap => exact iff_of_true rfl ⟨by simpa using hlen, hsrc, hdst, hcap⟩
      next hcap => exact iff_of_false (by decide) fun ⟨_, _, _, h⟩ => hcap h

end CheckedStatus

theorem RequestError.status_ne_ok (e : RequestError) : e.status ≠ .ok := by
  cases e <;> decide

end Sys2Proof.Machine

open Sys2Proof.Machine

/-- Settles O27: the machine's STATUS is that of the checks, of which the second is the one for the tags. -/
theorem invalidChannelOrderIffTagReserved : Obligations.InvalidChannelOrderIffTagReserved := by
  intro s cmd outCap hs hr
  refine ⟨_, step_serving_endsWith hs hr, ?_⟩
  rw [answer_status]
  exact checkedStatus_eq_invalidChannelOrder_iff

/-- Settles O28, as O27 with the third check. -/
theorem allocationFailureIffOverCapacity : Obligations.AllocationFailureIffOverCapacity := by
  intro s cmd outCap hs hr
  refine ⟨_, step_serving_endsWith hs hr, ?_⟩
  rw [answer_status]
  exact checkedStatus_eq_allocationFailure_iff

/-- Settles O34: each STATUS is that of the checks, which see the length of the input and no byte of it. -/
theorem statusIgnoresPixelValues : Obligations.StatusIgnoresPixelValues := by
  intro s s' cmd outCap hs hs' hr hr' hmultiple hlen
  refine ⟨_, _, step_serving_endsWith hs hr, step_serving_endsWith hs' hr', ?_⟩
  rw [answer_status, answer_status, hmultiple, hlen]

/-- Settles O49: the step after acceptance finds the request being served and ends in its answered state. -/
theorem acceptedRequestGetsOneResponse : Obligations.AcceptedRequestGetsOneResponse := by
  intro s r rest hp hh hr hrest
  exact ⟨accept r { s with host := rest }, answered r rest s, step_accepts hp hh hr, accept_phase r _,
    accept_response r _, step_serving (accept_serving r _) hrest, answered_phase r rest s, answered_response r rest s⟩

/-- Settles O29: an error is raised by responding with its code and no output. -/
theorem raisingAnErrorEntry : Obligations.RaisingAnErrorEntry := by
  intro e s
  rw [raiseError_eq]
  exact ⟨respond_endsWith e.status [] s, RequestError.status_ne_ok e⟩
end

section
/-! PROOF. Reset, in IDLE and over a request in progress, and a request presented while BUSY (10_state.md R33, R34;
70_reset_and_hazards.md R140, R141, R143, R144). -/

namespace Sys2Proof.Machine

/-- An index with no entry has not been written (R42). -/
theorem Memory.read_eq_none {m : Memory} {a : Nat} (h : ∀ x ∈ m.cells, x.1 ≠ a) : m.read a = none := by
  obtain ⟨cells⟩ := m
  change ∀ x ∈ cells, x.1 ≠ a at h
  change lookupCell a cells = none
  induction cells with
  | nil => rfl
  | cons x rest ih =>
    obtain ⟨hx, hrest⟩ := List.forall_mem_cons.mp h
    exact (if_neg hx.symm).trans (ih hrest)

section Abandoned
variable {s : State} {a : Nat}

theorem abandonedBound_of_serving {cmd : CmdWord} {outCap : Nat} (h : Serving s cmd outCap) :
    abandonedBound s = min (2 * (s.input.length / 3)) outCap := by
  simp only [abandonedBound, h.2, pixelCount]

/-- Every entry an abort leaves is within the storage of the aborted request, whatever the free bytes are. -/
theorem mem_abandonedOut_lt {x : Host.Cell} (h : x ∈ (abandonedOut s).cells) : x.1 < abandonedBound s := by
  obtain ⟨a, ha, hx⟩ := List.mem_filterMap.mp h
  obtain ⟨b, -, rfl⟩ := Option.map_eq_some_iff.mp hx
  exact List.mem_range.mp ha

theorem abandonedOut_read_ge (h : abandonedBound s ≤ a) : (abandonedOut s).read a = none :=
  Memory.read_eq_none fun _ hx => ((mem_abandonedOut_lt hx).trans_le h).ne

/-- Reset over a request in progress leaves no byte of OUT at `2n` or above, nor at OUT_CAP or above (R141). -/
theorem resetBlock_read_of_serving {cmd : CmdWord} {outCap : Nat} (h : Serving s cmd outCap)
    (ha : 2 * (s.input.length / 3) ≤ a ∨ outCap ≤ a) : (resetBlock s).out.read a = none := by
  rw [resetBlock_out_busy s h.1]
  apply abandonedOut_read_ge
  rw [abandonedBound_of_serving h]
  exact min_le_iff.mpr ha

end Abandoned

/-- Reset in IDLE, with nothing latched, only clears the response (R33, R140). -/
theorem resetBlock_idle {s : State} (hp : s.phase = .idle) (hl : s.latched = none) :
    resetBlock s = { s with response := none } := by
  simp only [resetBlock, hp, hl]

theorem noReset_of_request {s : State} {r : Request} {rest : List HostMove} (hh : s.host = .request r :: rest) :
    NoReset s := by
  intro rest' hreset
  rw [hh] at hreset
  cases hreset

end Sys2Proof.Machine

open Sys2Proof.Machine

/-- Settles O42: the step is a reset over the request in progress, and what that leaves in OUT is within its storage. -/
theorem resetAbortsTheRequest : Obligations.ResetAbortsTheRequest := by
  intro s cmd outCap rest hs hh
  exact ⟨resetBlock { s with host := rest }, step_reset hh, resetBlock_phase _, resetBlock_latched _,
    resetBlock_response _, resetBlock_input _, resetBlock_config _, resetBlock_host _,
    fun _ ha => resetBlock_read_of_serving (s := { s with host := rest }) hs ha⟩

/-- Settles O44: the step from IDLE is `accept`, and O45 says that a step from BUSY leads to IDLE. -/
theorem acceptanceLatchesTheRequest : Obligations.AcceptanceLatchesTheRequest := by
  constructor
  · intro s r rest hp hh hr
    exact ⟨accept r { s with host := rest }, step_accepts hp hh hr, accept_serving r _, accept_input r _, accept_out r _,
      accept_response r _, accept_host r _, accept_config r _⟩
  · intro s t hb h
    obtain ⟨-, hfromBusy⟩ := phaseChangesOnlyByAcceptResponseReset s t h
    exact (hfromBusy hb).1

/-- Settles O46: a presented request is no reset, so the step serves the one in progress, which leaves the host's moves. -/
theorem secondRequestIsNotAdmitted : Obligations.SecondRequestIsNotAdmitted := by
  intro s cmd outCap r rest hs hh
  obtain ⟨t, hstep, hresponse, ⟨hidle, hlatched, -⟩, -, hinput, hhost, -⟩ :=
    step_serving_endsWith hs (noReset_of_request hh)
  exact ⟨t, hstep, hidle, hlatched, hinput, hhost.trans hh, hresponse⟩

/-- Settles O43: the step takes the move and resets the block, in IDLE with nothing latched. -/
theorem resetInIdle : Obligations.ResetInIdle := by
  intro s rest hp hl hh
  rw [step_reset hh, resetBlock_idle (s := { s with host := rest }) hp hl]
end

section
/-! PROOF. The canonical form of the OUT storage: the cells are exactly what can be read, so reading determines them
(20_memory.md R42; log 9). -/

namespace Sys2Proof.Machine

theorem Memory.read_cons (a b : Nat) (w : Byte) (rest : List Host.Cell) :
    (⟨(b, w) :: rest⟩ : Memory).read a = if a = b then some w else (⟨rest⟩ : Memory).read a := rfl

/-- In canonical form an index is listed at most once, so the listed cells are exactly the bytes that can be read. -/
theorem Memory.read_eq_some_iff {m : Memory} (h : m.wf) {a : Nat} {v : Byte} : m.read a = some v ↔ (a, v) ∈ m.cells := by
  obtain ⟨cells⟩ := m
  change cells.Pairwise _ at h
  induction cells with
  | nil => simp [Memory.read, lookupCell]
  | cons x rest ih =>
    obtain ⟨b, w⟩ := x
    obtain ⟨hbelow, hrest⟩ := List.pairwise_cons.mp h
    rw [Memory.read_cons, List.mem_cons, Prod.mk.injEq]
    by_cases hab : a = b
    · have hnot : (a, v) ∉ rest := fun hmem => (hbelow _ hmem).ne' hab
      simp [hab, hab ▸ hnot, eq_comm]
    · simp [hab, ih hrest]

theorem cell_index_lt_asymm : Std.Asymm fun x y : Host.Cell => x.1 < y.1 := ⟨fun _ _ => Nat.lt_asymm⟩

/-- Canonical storages that read the same list the same cells, in the one order that rises. -/
theorem Memory.ext_of_read {m m' : Memory} (hm : m.wf) (hm' : m'.wf) (h : ∀ a, m.read a = m'.read a) : m = m' := by
  have hmem : ∀ x : Host.Cell, x ∈ m.cells ↔ x ∈ m'.cells := fun (a, v) => by
    rw [← Memory.read_eq_some_iff hm, ← Memory.read_eq_some_iff hm', h a]
  have := cell_index_lt_asymm
  exact congrArg Memory.mk (List.Pairwise.eq_of_mem_iff hm hm' hmem)

end Sys2Proof.Machine

open Sys2Proof.Machine

/-- Settles O15: the cells of a canonical storage are what it reads, and rising lists with the same cells are equal. -/
theorem canonicalStoragesAreExtensional : Obligations.CanonicalStoragesAreExtensional := fun _ _ => Memory.ext_of_read
end

section
/-! PROOF. A command exists only in a request: without one it faults, and a word put in by `withFetchWord` is the latched
word of a request in progress, with no reset before it is served (30_encoding.md R60; logs 4, 8 and 11). -/

namespace Sys2Proof.Machine

theorem holdReset_ne_reset (moves rest : List HostMove) : holdReset moves ≠ .reset :: rest := by
  cases moves with
  | nil => simp [holdReset]
  | cons move moves => cases move <;> simp [holdReset]

section FetchWord
variable (s : State) (nbits w : Nat)

@[simp] theorem withFetchWord_input : (s.withFetchWord nbits w).input = s.input := rfl

theorem withFetchWord_noReset : NoReset (s.withFetchWord nbits w) := holdReset_ne_reset s.host

/-- The latched word is the low `nbits` bits of the word put in, as a command word. -/
theorem withFetchWord_serving :
    Serving (s.withFetchWord nbits w) (BitVec.ofNat 4 (w % 2 ^ nbits)) (fetchCapacity s) := accept_serving _ _

end FetchWord

/-- A command word fits in the 8 bits of a table word, so it is latched as it is. -/
theorem withFetchWord_cmd_serving (s : State) (cmd : CmdWord) :
    Serving (s.withFetchWord 8 cmd.toNat) cmd (fetchCapacity s) := by
  have hword : BitVec.ofNat 4 (cmd.toNat % 2 ^ 8) = cmd := by
    rw [Nat.mod_eq_of_lt (by omega), BitVec.ofNat_toNat, BitVec.setWidth_eq]
  have hserving := withFetchWord_serving s 8 cmd.toNat
  rwa [hword] at hserving

end Sys2Proof.Machine

open Sys2Proof Sys2Proof.Machine

/-- Settles O23: every command serves the request in progress, and there is none. -/
theorem commandWithoutRequestFaults : Obligations.CommandWithoutRequestFaults := fun i _ => exec_noRequest i

/-- Settles O40: the word put in is being served with no reset to come first, and it decodes to the command (O39). -/
theorem fetchedWordRunsNext : Obligations.FetchedWordRunsNext := by
  intro s i
  have hserving := withFetchWord_cmd_serving s (encode i)
  obtain ⟨hruns, -⟩ := stepRunsTheDecodedCommand _ _ _ hserving (withFetchWord_noReset s 8 (encode i).toNat)
  exact ⟨hruns i (decode_encode i), hserving, withFetchWord_input s 8 (encode i).toNat⟩
end
